-- ==== Sys2Proof/Word.lean ====
section
/-! DEFINITION. The word types of the cs-chip8 CORE and their plainest arithmetic (spec/00_scope.md R14, R15). -/

namespace Sys2Proof

/-- An 8-bit value: a general-purpose register, a timer, the stack pointer, a memory byte, an immediate `kk`. -/
abbrev Byte := BitVec 8

/-- A 16-bit value: `pc`, `I`, `IR`, a stack entry, an instruction word. -/
abbrev Word := BitVec 16

/-- A 4-bit value: a register number `x` or `y`, the row count `n`, a primary group (spec/30_encoding.md R81). -/
abbrev Nibble := BitVec 4

/-- A 12-bit absolute address `nnn` (R81). -/
abbrev Addr := BitVec 12

/-- `zext_16` of a byte (R15). -/
def Byte.toWord (b : Byte) : Word := b.zeroExtend 16

/-- `zext_8` of a nibble (R15). -/
def Nibble.toByte (n : Nibble) : Byte := n.zeroExtend 8

/-- `zext_16` of a 12-bit address (R83). -/
def Addr.toWord (a : Addr) : Word := a.zeroExtend 16

end Sys2Proof
end

