-- ==== Sys2Proof/Syntax.lean ====
section
/-! DEFINITION. The instruction set: one constructor per row of spec/opcode_table.json (spec/30_encoding.md R95). -/

namespace Sys2Proof

/-- The 34 decodable instructions, in the order of R95, each with the operand fields its format has (R82).
SHR and SHL keep the `y` field they encode and ignore (R158, R160), so that no bit of a word is dropped.
The operation LD Vx,ST (R192) has no encoding by default and no row in the table: it is no constructor
(log entry 15; `Machine.execUndecoded` runs it where the parameter GET_SOUND_SEL is present). -/
inductive Instr where
  /-- 1. `CLS`, 00E0 (R130). -/
  | cls
  /-- 2. `RET`, 00EE (R131). -/
  | ret
  /-- 3. `JP addr`, 1nnn (R132). -/
  | jp (nnn : Addr)
  /-- 4. `CALL addr`, 2nnn (R133). -/
  | call (nnn : Addr)
  /-- 5. `SE Vx, byte`, 3xkk (R134). -/
  | seByte (x : Nibble) (kk : Byte)
  /-- 6. `SNE Vx, byte`, 4xkk (R135). -/
  | sneByte (x : Nibble) (kk : Byte)
  /-- 7. `SE Vx, Vy`, 5xy0 (R136). -/
  | seReg (x y : Nibble)
  /-- 8. `LD Vx, byte`, 6xkk (R150). -/
  | ldByte (x : Nibble) (kk : Byte)
  /-- 9. `ADD Vx, byte`, 7xkk (R151). -/
  | addByte (x : Nibble) (kk : Byte)
  /-- 10. `LD Vx, Vy`, 8xy0 (R152). -/
  | ldReg (x y : Nibble)
  /-- 11. `OR Vx, Vy`, 8xy1 (R153). -/
  | orReg (x y : Nibble)
  /-- 12. `AND Vx, Vy`, 8xy2 (R154). -/
  | andReg (x y : Nibble)
  /-- 13. `XOR Vx, Vy`, 8xy3 (R155). -/
  | xorReg (x y : Nibble)
  /-- 14. `ADD Vx, Vy`, 8xy4 (R156). -/
  | addReg (x y : Nibble)
  /-- 15. `SUB Vx, Vy`, 8xy5 (R157). -/
  | subReg (x y : Nibble)
  /-- 16. `SHR Vx`, 8xy6 (R158). -/
  | shr (x y : Nibble)
  /-- 17. `SUBN Vx, Vy`, 8xy7 (R159). -/
  | subnReg (x y : Nibble)
  /-- 18. `SHL Vx`, 8xyE (R160). -/
  | shl (x y : Nibble)
  /-- 19. `SNE Vx, Vy`, 9xy0 (R137). -/
  | sneReg (x y : Nibble)
  /-- 20. `LD I, addr`, Annn (R161). -/
  | ldI (nnn : Addr)
  /-- 21. `JP V0, addr`, Bnnn (R138). -/
  | jpV0 (nnn : Addr)
  /-- 22. `RND Vx, byte`, Cxkk (R162). -/
  | rnd (x : Nibble) (kk : Byte)
  /-- 23. `DRW Vx, Vy, nibble`, Dxyn (R180). -/
  | drw (x y n : Nibble)
  /-- 24. `SKP Vx`, Ex9E (R181). -/
  | skp (x : Nibble)
  /-- 25. `SKNP Vx`, ExA1 (R182). -/
  | sknp (x : Nibble)
  /-- 26. `LD Vx, DT`, Fx07 (R183). -/
  | ldVxDt (x : Nibble)
  /-- 27. `LD Vx, K`, Fx0A (R184). -/
  | ldVxK (x : Nibble)
  /-- 28. `LD DT, Vx`, Fx15 (R185). -/
  | ldDtVx (x : Nibble)
  /-- 29. `LD ST, Vx`, Fx18 (R186). -/
  | ldStVx (x : Nibble)
  /-- 30. `ADD I, Vx`, Fx1E (R187). -/
  | addI (x : Nibble)
  /-- 31. `LD F, Vx`, Fx29 (R188). -/
  | ldF (x : Nibble)
  /-- 32. `LD B, Vx`, Fx33 (R189). -/
  | ldB (x : Nibble)
  /-- 33. `LD [I], Vx`, Fx55 (R190). -/
  | ldMemVx (x : Nibble)
  /-- 34. `LD Vx, [I]`, Fx65 (R191). -/
  | ldVxMem (x : Nibble)
  deriving DecidableEq, Repr

end Sys2Proof
end

