-- ==== Sys2Proof/Config.lean ====
section
/-! DEFINITION. The fixed sizes, the implementation parameters and the free values (spec/00_scope.md R5, R11, R12). -/

namespace Sys2Proof

/-- `MEM_SIZE` (R5): capacity in bytes of the main memory. -/
abbrev memSize : Nat := 4096

/-- `PROG_BASE` (R5): the first program-region address and the value of `pc` after Reset. -/
abbrev progBase : Nat := 0x200

/-- `STACK_DEPTH` (R5): entries of the return-address stack. -/
abbrev stackDepth : Nat := 16

/-- The parameters of R5 that the spec keeps as parameters (decisions D10, D14, D17).
Their values for this hardware are `Machine.hwConfig`. -/
structure Config where
  /-- `DISP_W`: display width in pixels. -/
  dispW : Nat
  /-- `DISP_H`: display height in pixels. -/
  dispH : Nat
  /-- `FONT_BASE`: main-memory address of the glyph for digit 0. -/
  fontBase : Nat
  /-- `FONT_STRIDE`: bytes per glyph. -/
  fontStride : Nat
  /-- `GET_SOUND_SEL`: the optional low-byte selector of "get sound timer". -/
  getSoundSel : Option Byte
  deriving DecidableEq, Repr

/-- `DISP_SIZE` (R5): capacity in bytes of the display memory, one byte per pixel. -/
def Config.dispSize (c : Config) : Nat := c.dispW * c.dispH

/-- FREE VALUE (log entry 4): the keypad snapshot `KEYS` of the Cycle with this index, where the host has queued
none. R11: "The value of `KEYS` at each Cycle is a free input chosen by the host; no rule constrains it." -/
opaque Config.freeKeys : Nat → BitVec 16

/-- FREE VALUE (log entry 5): the byte `RAND` of the Cycle with this index, where the host has queued none.
R12: "Each value is a free draw"; a Cycle draws at most once. -/
opaque Config.freeRand : Nat → Byte

/-- FREE VALUE (log entry 9): what DRW leaves in a display cell that held neither 0x00 nor 0x01, as a function of
the Cycle's index, the cell's address and its old value. R52: "the result of DRW on that cell is outside this spec". -/
opaque Config.strayCell : Nat → Nat → Byte → Byte

/-- FREE VALUE (log entry 9): whether DRW counts such a cell as a collision (R52). -/
opaque Config.strayHit : Nat → Nat → Byte → Bool

end Sys2Proof
end

