-- ==== Sys2Proof/WellFormed.lean ====
section
/-! DEFINITION. What a well-formed instruction and a well-formed parameter record are (spec/00_scope.md R5; spec/60_exceptions.md R210). -/

namespace Sys2Proof

/-- Every term of `Instr` is well formed: its fields have exactly the widths of the encoding, and "every field
value is legal" (R210). Written constructor by constructor, so that a new one cannot pass unseen. -/
def Instr.wf (i : Instr) : Bool :=
  match i with
  | .cls | .ret => true
  | .jp _ | .call _ | .ldI _ | .jpV0 _ => true
  | .seByte _ _ | .sneByte _ _ | .ldByte _ _ | .addByte _ _ | .rnd _ _ => true
  | .seReg _ _ | .sneReg _ _ | .ldReg _ _ | .orReg _ _ | .andReg _ _ | .xorReg _ _ => true
  | .addReg _ _ | .subReg _ _ | .shr _ _ | .subnReg _ _ | .shl _ _ => true
  | .drw _ _ _ => true
  | .skp _ | .sknp _ | .ldVxDt _ | .ldVxK _ | .ldDtVx _ | .ldStVx _ => true
  | .addI _ | .ldF _ | .ldB _ | .ldMemVx _ | .ldVxMem _ => true

/-- The low bytes that the nine Fx instructions take (R89). -/
def fxSelectors : List Byte := [0x07, 0x0A, 0x15, 0x18, 0x1E, 0x29, 0x33, 0x55, 0x65]

/-- "a separate, smaller fixed capacity for the display buffer" (R5). -/
def Config.displayFits (c : Config) : Bool := decide (c.dispSize < memSize)

/-- `DISP_W >= 8` and `DISP_H >= 15`: one draw never touches a pixel twice (R5). -/
def Config.spriteFits (c : Config) : Bool := decide (8 ≤ c.dispW) && decide (15 ≤ c.dispH)

/-- `FONT_BASE + 16 * FONT_STRIDE <= PROG_BASE` (R5). -/
def Config.fontFits (c : Config) : Bool := decide (c.fontBase + 16 * c.fontStride ≤ progBase)

/-- `GET_SOUND_SEL`, if present, is none of the nine selectors in use (R5). -/
def Config.soundSelFree (c : Config) : Bool :=
  match c.getSoundSel with
  | none => true
  | some b => !fxSelectors.contains b

/-- The constraints R5 puts on the parameters, together. -/
def Config.wf (c : Config) : Bool := c.displayFits && c.spriteFits && c.fontFits && c.soundSelFree

end Sys2Proof
end

