-- ==== Sys2Proof/Decode.lean ====
section
/-! DEFINITION. Instruction encoding and decode (spec/30_encoding.md R80 to R96). -/

namespace Sys2Proof

/-- Why a word or a byte sequence is no instruction: by group, R90. A word refused here is the UnknownInstruction
of R212: the CORE reports it and goes on. -/
inductive DecodeError where
  /-- Fewer than two bytes: no word (R80). -/
  | truncated
  /-- Group 0, a word other than 00E0 and 00EE (R85). -/
  | unknownGroup0
  /-- Group 5 with `n` not 0 (R88). -/
  | unknownGroup5
  /-- Group 8 with `n` in 8, 9, A, B, C, D, F (R86). -/
  | unknownGroup8
  /-- Group 9 with `n` not 0 (R88). -/
  | unknownGroup9
  /-- Group E with `kk` neither 9E nor A1 (R87). -/
  | unknownGroupE
  /-- Group F with `kk` none of the nine selectors (R89). -/
  | unknownGroupF
  /-- The decoder's explicit default arm, which no word reaches: all sixteen groups are assigned (R84, C10). -/
  | unknownGroup
  deriving DecidableEq, Repr

/-- The primary group selector `g` = w[15:12] (R81, R84). -/
def Word.group (w : Word) : Nibble := w.extractLsb' 12 4

/-- `x` = w[11:8] (R81). -/
def Word.fieldX (w : Word) : Nibble := w.extractLsb' 8 4

/-- `y` = w[7:4] (R81, R96). -/
def Word.fieldY (w : Word) : Nibble := w.extractLsb' 4 4

/-- `n` = w[3:0] (R81). -/
def Word.fieldN (w : Word) : Nibble := w.extractLsb' 0 4

/-- `kk` = w[7:0] (R81). -/
def Word.fieldKK (w : Word) : Byte := w.extractLsb' 0 8

/-- `nnn` = w[11:0] (R81). -/
def Word.fieldNNN (w : Word) : Addr := w.extractLsb' 0 12

/-- Group 0: the whole word is compared (R85). -/
def decodeGroup0 (w : Word) : Except DecodeError Instr :=
  if w = 0x00E0#16 then .ok .cls
  else if w = 0x00EE#16 then .ok .ret
  else .error .unknownGroup0

/-- Group 8: the secondary selector is the low nibble (R86). -/
def decodeGroup8 (w : Word) : Except DecodeError Instr :=
  match w.fieldN.toNat with
  | 0x0 => .ok (.ldReg w.fieldX w.fieldY)
  | 0x1 => .ok (.orReg w.fieldX w.fieldY)
  | 0x2 => .ok (.andReg w.fieldX w.fieldY)
  | 0x3 => .ok (.xorReg w.fieldX w.fieldY)
  | 0x4 => .ok (.addReg w.fieldX w.fieldY)
  | 0x5 => .ok (.subReg w.fieldX w.fieldY)
  | 0x6 => .ok (.shr w.fieldX w.fieldY)
  | 0x7 => .ok (.subnReg w.fieldX w.fieldY)
  | 0xE => .ok (.shl w.fieldX w.fieldY)
  | _ => .error .unknownGroup8

/-- Group E: the secondary selector is the low byte (R87). -/
def decodeGroupE (w : Word) : Except DecodeError Instr :=
  match w.fieldKK.toNat with
  | 0x9E => .ok (.skp w.fieldX)
  | 0xA1 => .ok (.sknp w.fieldX)
  | _ => .error .unknownGroupE

/-- Group F: the secondary selector is the low byte (R89). -/
def decodeGroupF (w : Word) : Except DecodeError Instr :=
  match w.fieldKK.toNat with
  | 0x07 => .ok (.ldVxDt w.fieldX)
  | 0x0A => .ok (.ldVxK w.fieldX)
  | 0x15 => .ok (.ldDtVx w.fieldX)
  | 0x18 => .ok (.ldStVx w.fieldX)
  | 0x1E => .ok (.addI w.fieldX)
  | 0x29 => .ok (.ldF w.fieldX)
  | 0x33 => .ok (.ldB w.fieldX)
  | 0x55 => .ok (.ldMemVx w.fieldX)
  | 0x65 => .ok (.ldVxMem w.fieldX)
  | _ => .error .unknownGroupF

/-- The decoder: primary dispatch on the group, then the group's secondary selector (R84 to R89). It is total and
a pure function of the word (R80, R96); the parameter GET_SOUND_SEL enters in `decodeSound`. -/
def decode (w : Word) : Except DecodeError Instr :=
  match w.group.toNat with
  | 0x0 => decodeGroup0 w
  | 0x1 => .ok (.jp w.fieldNNN)
  | 0x2 => .ok (.call w.fieldNNN)
  | 0x3 => .ok (.seByte w.fieldX w.fieldKK)
  | 0x4 => .ok (.sneByte w.fieldX w.fieldKK)
  | 0x5 => if w.fieldN = 0#4 then .ok (.seReg w.fieldX w.fieldY) else .error .unknownGroup5
  | 0x6 => .ok (.ldByte w.fieldX w.fieldKK)
  | 0x7 => .ok (.addByte w.fieldX w.fieldKK)
  | 0x8 => decodeGroup8 w
  | 0x9 => if w.fieldN = 0#4 then .ok (.sneReg w.fieldX w.fieldY) else .error .unknownGroup9
  | 0xA => .ok (.ldI w.fieldNNN)
  | 0xB => .ok (.jpV0 w.fieldNNN)
  | 0xC => .ok (.rnd w.fieldX w.fieldKK)
  | 0xD => .ok (.drw w.fieldX w.fieldY w.fieldN)
  | 0xE => decodeGroupE w
  | 0xF => decodeGroupF w
  | _ => .error .unknownGroup

/-- LD Vx,ST (R92, R192): a word `Fxs` that is no row of R95, where `s` is the parameter GET_SOUND_SEL. -/
def decodeSound (c : Config) (w : Word) : Option Nibble :=
  match c.getSoundSel with
  | none => none
  | some sel => if w.group = 0xF#4 ∧ w.fieldKK = sel then some w.fieldX else none

/-- The word of two bytes, the first in the high-order 8 bits (spec/20_memory.md R56). -/
def wordOfBytes (hi lo : Byte) : Word := hi ++ lo

/-- The byte at the lower address (R56). -/
def Word.hiByte (w : Word) : Byte := w.extractLsb' 8 8

/-- The byte at the higher address (R56). -/
def Word.loByte (w : Word) : Byte := w.extractLsb' 0 8

/-- Decode from bytes as they stand in memory, total on any sequence: the instruction and the bytes after it. -/
def decodeBytes (bs : List Byte) : Except DecodeError (Instr × List Byte) :=
  match bs with
  | hi :: lo :: rest =>
    match decode (wordOfBytes hi lo) with
    | .ok i => .ok (i, rest)
    | .error e => .error e
  | _ => .error .truncated

/-- A word of format NNN (R82). -/
def packNNN (g : Nibble) (nnn : Addr) : Word := g ++ nnn

/-- A word of format XKK, or of format X with the selector as its low byte (R82). -/
def packXKK (g x : Nibble) (kk : Byte) : Word := (g ++ x) ++ kk

/-- A word of format XYN, or of format XY with the selector as its low nibble (R82). -/
def packXYN (g x y n : Nibble) : Word := ((g ++ x) ++ y) ++ n

/-- The encoder: the word of an instruction, from the patterns of R95. -/
def encode (i : Instr) : Word :=
  match i with
  | .cls => 0x00E0#16
  | .ret => 0x00EE#16
  | .jp nnn => packNNN 0x1 nnn
  | .call nnn => packNNN 0x2 nnn
  | .seByte x kk => packXKK 0x3 x kk
  | .sneByte x kk => packXKK 0x4 x kk
  | .seReg x y => packXYN 0x5 x y 0x0
  | .ldByte x kk => packXKK 0x6 x kk
  | .addByte x kk => packXKK 0x7 x kk
  | .ldReg x y => packXYN 0x8 x y 0x0
  | .orReg x y => packXYN 0x8 x y 0x1
  | .andReg x y => packXYN 0x8 x y 0x2
  | .xorReg x y => packXYN 0x8 x y 0x3
  | .addReg x y => packXYN 0x8 x y 0x4
  | .subReg x y => packXYN 0x8 x y 0x5
  | .shr x y => packXYN 0x8 x y 0x6
  | .subnReg x y => packXYN 0x8 x y 0x7
  | .shl x y => packXYN 0x8 x y 0xE
  | .sneReg x y => packXYN 0x9 x y 0x0
  | .ldI nnn => packNNN 0xA nnn
  | .jpV0 nnn => packNNN 0xB nnn
  | .rnd x kk => packXKK 0xC x kk
  | .drw x y n => packXYN 0xD x y n
  | .skp x => packXKK 0xE x 0x9E
  | .sknp x => packXKK 0xE x 0xA1
  | .ldVxDt x => packXKK 0xF x 0x07
  | .ldVxK x => packXKK 0xF x 0x0A
  | .ldDtVx x => packXKK 0xF x 0x15
  | .ldStVx x => packXKK 0xF x 0x18
  | .addI x => packXKK 0xF x 0x1E
  | .ldF x => packXKK 0xF x 0x29
  | .ldB x => packXKK 0xF x 0x33
  | .ldMemVx x => packXKK 0xF x 0x55
  | .ldVxMem x => packXKK 0xF x 0x65

/-- The two bytes of an instruction in memory order (R80). -/
def encodeBytes (i : Instr) : List Byte := [(encode i).hiByte, (encode i).loByte]

/-- A row of the opcode table of R95: its number, mask and match. -/
structure OpcodeRow where
  number : Nat
  mask : Word
  pattern : Word
  deriving DecidableEq, Repr

/-- A word matches a row when `w and mask == match` (R95). -/
def OpcodeRow.matchesWord (r : OpcodeRow) (w : Word) : Bool := decide (w &&& r.mask = r.pattern)

/-- Rows 1 to 9 of R95. -/
def opcodeRowsA : List OpcodeRow :=
  [⟨1, 0xFFFF, 0x00E0⟩, ⟨2, 0xFFFF, 0x00EE⟩, ⟨3, 0xF000, 0x1000⟩, ⟨4, 0xF000, 0x2000⟩, ⟨5, 0xF000, 0x3000⟩,
   ⟨6, 0xF000, 0x4000⟩, ⟨7, 0xF00F, 0x5000⟩, ⟨8, 0xF000, 0x6000⟩, ⟨9, 0xF000, 0x7000⟩]

/-- Rows 10 to 19 of R95. -/
def opcodeRowsB : List OpcodeRow :=
  [⟨10, 0xF00F, 0x8000⟩, ⟨11, 0xF00F, 0x8001⟩, ⟨12, 0xF00F, 0x8002⟩, ⟨13, 0xF00F, 0x8003⟩, ⟨14, 0xF00F, 0x8004⟩,
   ⟨15, 0xF00F, 0x8005⟩, ⟨16, 0xF00F, 0x8006⟩, ⟨17, 0xF00F, 0x8007⟩, ⟨18, 0xF00F, 0x800E⟩, ⟨19, 0xF00F, 0x9000⟩]

/-- Rows 20 to 34 of R95. -/
def opcodeRowsC : List OpcodeRow :=
  [⟨20, 0xF000, 0xA000⟩, ⟨21, 0xF000, 0xB000⟩, ⟨22, 0xF000, 0xC000⟩, ⟨23, 0xF000, 0xD000⟩, ⟨24, 0xF0FF, 0xE09E⟩,
   ⟨25, 0xF0FF, 0xE0A1⟩, ⟨26, 0xF0FF, 0xF007⟩, ⟨27, 0xF0FF, 0xF00A⟩, ⟨28, 0xF0FF, 0xF015⟩, ⟨29, 0xF0FF, 0xF018⟩,
   ⟨30, 0xF0FF, 0xF01E⟩, ⟨31, 0xF0FF, 0xF029⟩, ⟨32, 0xF0FF, 0xF033⟩, ⟨33, 0xF0FF, 0xF055⟩, ⟨34, 0xF0FF, 0xF065⟩]

/-- The opcode table of R95, 34 rows, as masks and matches: a second view of the decoder, held against `decode`
by a statement. -/
def opcodeTable : List OpcodeRow := opcodeRowsA ++ opcodeRowsB ++ opcodeRowsC

/-- The number of the row of R95 an instruction belongs to. -/
def Instr.rowNumber (i : Instr) : Nat :=
  match i with
  | .cls => 1 | .ret => 2 | .jp _ => 3 | .call _ => 4 | .seByte _ _ => 5 | .sneByte _ _ => 6 | .seReg _ _ => 7
  | .ldByte _ _ => 8 | .addByte _ _ => 9 | .ldReg _ _ => 10 | .orReg _ _ => 11 | .andReg _ _ => 12
  | .xorReg _ _ => 13 | .addReg _ _ => 14 | .subReg _ _ => 15 | .shr _ _ => 16 | .subnReg _ _ => 17
  | .shl _ _ => 18 | .sneReg _ _ => 19 | .ldI _ => 20 | .jpV0 _ => 21 | .rnd _ _ => 22 | .drw _ _ _ => 23
  | .skp _ => 24 | .sknp _ => 25 | .ldVxDt _ => 26 | .ldVxK _ => 27 | .ldDtVx _ => 28 | .ldStVx _ => 29
  | .addI _ => 30 | .ldF _ => 31 | .ldB _ => 32 | .ldMemVx _ => 33 | .ldVxMem _ => 34

/-- The word of a table row's bits: `nbits` bits of `w`, every bit above them 0. Each row is one 16-bit word, whose
bit 0 is the table's bit 0. -/
def tableWord (nbits w : Nat) : Word := BitVec.ofNat 16 (w % 2 ^ nbits)

/-- The instruction the decoder reads from a table row's bits, laid out as two bytes with the high-order byte first
(R56, R80) and given to `decodeBytes`; none where it refuses. -/
def decodeTableWord (nbits w : Nat) : Option Instr :=
  match decodeBytes [(tableWord nbits w).hiByte, (tableWord nbits w).loByte] with
  | .ok (i, _) => some i
  | .error _ => none

end Sys2Proof
end

