-- ==== Sys2Proof/Machine/State.lean ====
section
/-! DEFINITION. The state of the machine as plain data, its stop reasons, and the state after reset (spec/10_state.md; spec/70_reset_and_hazards.md R240). -/

namespace Sys2Proof.Machine

/-- The model's own stops with a named reason. The CORE's fatal errors are NOT here: `raise` (spec/60_exceptions.md
R218) leads to a next state with HALT = 1. -/
inductive Fault where
  /-- Raised by CALL and RET in a state whose SP is above 16: the entry STK[SP] or STK[SP-1] does not exist.
  No run reaches such a state (spec/10_state.md R27). SAFE: the model stops (log entry 8). -/
  | noStackEntry
  deriving DecidableEq, Repr

/-- What the model gives no meaning to. -/
inductive Refusal where
  /-- Raised by `exec` for an instruction with no meaning yet. SAFE. -/
  | notModelled (mnemonic : String)
  /-- Raised by `step` and by the driver's TickTimers on a CORE that was never reset: "a `Cycle()` or `TickTimers()`
  on a never-reset CORE has no meaning in this spec (a model refuses it)" (R241). SAFE. -/
  | neverReset
  /-- Raised by the driver's program load after the first Cycle following a Reset: "not modelled" (spec/20_memory.md
  R67, U12). SAFE. -/
  | loadWindowClosed
  /-- Raised by the driver's program load that reaches above address 4095: "the loader's write fails in the memory,
  outside the CORE" (R243, U22). SAFE. -/
  | loadOutOfRange
  deriving DecidableEq, Repr

/-- A memory: (address, byte) pairs in one canonical form, addresses strictly rising and no byte 0x00 listed. An
unlisted address reads as 0x00 (log entries 1 and 2). `Memory.wf` (Ops.lean) says the form holds. -/
abbrev Memory := List Host.Cell

/-- The error kinds (spec/60_exceptions.md R210). -/
inductive ErrKind where
  | unknownInstruction
  | stackOverflow
  | stackUnderflow
  | outOfBoundsAccess
  deriving DecidableEq, Repr

/-- One sample of the CORE's inputs (spec/00_scope.md R11, R12). -/
structure Pins where
  /-- `KEYS`: bit `k` is 1 when key `k` is pressed (R11). -/
  keys : BitVec 16
  /-- `RAND`: the byte an RND of this Cycle draws (R12). -/
  rand : Byte
  deriving DecidableEq, Repr

/-- How far the host has booted the CORE (spec/70_reset_and_hazards.md R241; spec/20_memory.md R67). -/
inductive Phase where
  /-- Constructed, never reset: Cycle and TickTimers are refused. -/
  | constructed
  /-- Reset, no Cycle since: the host may still load the program. -/
  | ready
  /-- A Cycle has run since the last Reset. -/
  | running
  deriving DecidableEq, Repr

/-- The host's side of the interface, the MODEL's own fields (log entries 4, 5, 6, 7, 12): the CORE has none of
them (spec/10_state.md R30). -/
structure Env where
  /-- The inputs as they stand during the current Cycle. -/
  pins : Pins
  /-- Input samples the host has already presented for the next Cycles, oldest first. -/
  queue : List Pins
  /-- The index of the current Cycle's free values. -/
  cycle : Nat
  /-- The UnknownInstruction reports emitted so far, oldest first (R13, R212). -/
  reports : List Word
  /-- Boot phase. -/
  phase : Phase
  deriving DecidableEq, Repr

/-- Everything the spec gives the machine (spec/10_state.md R20 to R31; spec/20_memory.md R50, R51), and `env`. -/
structure State where
  /-- `V[0]` to `V[15]` (R20, R21). -/
  regs : Vector Byte 16
  /-- `I`, the index register (R24). -/
  i : Word
  /-- `DT`, the delay timer (R25). -/
  dt : Byte
  /-- `ST`, the sound timer (R26). -/
  st : Byte
  /-- `pc`, the address of the next instruction to fetch (R22, R23). -/
  pc : Word
  /-- `SP`, the number of valid stack entries (R27). -/
  sp : Byte
  /-- `STK[0]` to `STK[15]`, the return-address stack (R28). -/
  stk : Vector Word 16
  /-- `IR`, the last-fetched instruction word (R29). -/
  ir : Word
  /-- `HALT`, 1 bit: a fatal error was raised since the last Reset (R29). -/
  halt : Bool
  /-- `ERR`, 3 bits: the code of that error (R29, R210). -/
  err : BitVec 3
  /-- The main memory (R50). -/
  mem : Memory
  /-- The display memory, one byte per pixel (R51). -/
  disp : Memory
  /-- The host's side (the model's own). -/
  env : Env
  deriving DecidableEq, Repr

/-- The machine right after the first Reset (R240, R31), with nothing loaded. The values the spec states: V, I, DT,
ST, pc, SP, IR, HALT, ERR. The values the model chose: STK (log entry 3), both memories (log entries 1 and 2: nothing
listed), `env` (log entry 6). -/
def State.reset : State where
  regs := Vector.replicate 16 0x00
  i := 0x0000
  dt := 0x00
  st := 0x00
  pc := 0x0200
  sp := 0x00
  stk := Vector.replicate 16 0x0000
  ir := 0x0000
  halt := false
  err := 0
  mem := []
  disp := []
  env := { pins := { keys := 0x0000, rand := 0x00 }, queue := [], cycle := 0, reports := [], phase := .ready }

/-- What an operation answers (Host/Core.lean). -/
abbrev Answer := Host.Outcome State Fault Refusal

end Sys2Proof.Machine
end

