-- ==== Sys2Proof/Machine/Ops.lean ====
section
/-! DEFINITION. The named operations over memory, registers, stack, inputs, errors and timers (spec/20_memory.md; spec/40_fetch_dispatch.md; spec/60_exceptions.md; spec/70_reset_and_hazards.md). -/

namespace Sys2Proof.Machine

/-- The parameters of this hardware: the values of R5 (log entry 14). -/
def hwConfig : Config :=
  { dispW := 64, dispH := 32, fontBase := 0x000, fontStride := 5, getSoundSel := none }

/-! ## Memory -/

/-- The byte at an address: R53 for an address in range. -/
def Memory.get : Memory → Nat → Byte
  | [], _ => 0x00
  | (b, v) :: m, a => if b = a then v else Memory.get m a

/-- The memory without a listed byte at `a`. -/
def Memory.erase (m : Memory) (a : Nat) : Memory := m.filter (fun c => c.1 != a)

/-- The memory with `(a, v)` put before the first higher address. -/
def Memory.insert : Memory → Nat → Byte → Memory
  | [], a, v => [(a, v)]
  | (b, w) :: m, a, v => if a < b then (a, v) :: (b, w) :: m else (b, w) :: Memory.insert m a v

/-- The memory with the byte at `a` equal to `v` (R54 for an address in range); a byte 0x00 is not listed. -/
def Memory.set (m : Memory) (a : Nat) (v : Byte) : Memory :=
  if v = 0x00 then Memory.erase m a else Memory.insert (Memory.erase m a) a v

/-- The canonical form from address `lo` up: strictly rising below `cap`, no byte 0x00. -/
def Memory.wfFrom (cap : Nat) : Nat → Memory → Bool
  | _, [] => true
  | lo, (a, v) :: m => decide (lo ≤ a) && decide (a < cap) && decide (v ≠ 0x00) && Memory.wfFrom cap (a + 1) m

/-- The canonical form of a memory of `cap` bytes. -/
def Memory.wf (cap : Nat) (m : Memory) : Bool := Memory.wfFrom cap 0 m

/-- Bytes written at ascending addresses from `base` (R60). -/
def storeBytes (m : Memory) (base : Nat) : List Byte → Memory
  | [] => m
  | b :: bs => storeBytes (m.set base b) (base + 1) bs

/-- `k` bytes read at ascending addresses from `base` (R60). -/
def loadBytes (m : Memory) (base : Nat) : Nat → List Byte
  | 0 => []
  | k + 1 => m.get base :: loadBytes m (base + 1) k

/-- Every one of `len` byte addresses from `base` up is a main-memory address; true when there is none
(R53, R54, R61: tested before any write; sums are not wrapped, R16). -/
def inRange (base len : Nat) : Bool := decide (len = 0 ∨ base + len ≤ memSize)

/-! ## Registers -/

/-- Read of `V[x]` (R20). -/
def State.v (s : State) (x : Nibble) : Byte := s.regs[x.toNat]'x.isLt

/-- Write of `V[x]` (R20): no register is hardwired. -/
def State.setV (s : State) (x : Nibble) (b : Byte) : State := { s with regs := s.regs.set x.toNat b x.isLt }

/-- Write of `I` (R24). -/
def State.setI (s : State) (w : Word) : State := { s with i := w }

/-- Write of `DT` (R25). -/
def State.setDt (s : State) (b : Byte) : State := { s with dt := b }

/-- Write of `ST` (R26). -/
def State.setSt (s : State) (b : Byte) : State := { s with st := b }

/-- Write of `pc` (R22). -/
def State.setPc (s : State) (w : Word) : State := { s with pc := w }

/-- The main memory replaced (R50). -/
def State.setMem (s : State) (m : Memory) : State := { s with mem := m }

/-- The display memory replaced (R51). -/
def State.setDisp (s : State) (m : Memory) : State := { s with disp := m }

/-- The host's side replaced (the model's own). -/
def State.setEnv (s : State) (e : Env) : State := { s with env := e }

/-! ## Errors (spec/60_exceptions.md) -/

/-- The code of an error kind (R210). -/
def ErrKind.code (e : ErrKind) : BitVec 3 :=
  match e with
  | .unknownInstruction => 1
  | .stackOverflow => 2
  | .stackUnderflow => 3
  | .outOfBoundsAccess => 4

/-- `raise E` for a fatal kind (R218): HALT and ERR are set and nothing else changes. There is no return from it but
Reset (R219). -/
def raise (e : ErrKind) (s : State) : State := { s with halt := true, err := e.code }

/-- `report UnknownInstruction(IR)` (R212, R114): one output event carrying the word; no state of the CORE changes. -/
def reportUnknown (s : State) : State := s.setEnv { s.env with reports := s.env.reports ++ [s.ir] }

/-- A memory instruction: its one bounds test, then its effect (R61, R115, R217). -/
def guarded (base len : Nat) (s done : State) : Answer :=
  .next (if inRange base len then done else raise .outOfBoundsAccess s)

/-! ## The return-address stack (spec/10_state.md R27, R28) -/

/-- `STK[j]`. -/
def State.stkAt (s : State) (j : Nat) (h : j < stackDepth) : Word := s.stk[j]'h

/-- `STK[SP] <- pc; SP <- SP + 1` (R133). -/
def pushPc (s : State) (h : s.sp.toNat < stackDepth) : State :=
  { s with stk := s.stk.set s.sp.toNat s.pc h, sp := s.sp + 1 }

/-- CALL's stack test and push (R133), then `pc <- target`. SP above 16 has no entry to write (log entry 8). -/
def callTo (target : Word) (s : State) : Answer :=
  if h : s.sp.toNat < stackDepth then .next ((pushPc s h).setPc target)
  else if s.sp.toNat = stackDepth then .next (raise .stackOverflow s)
  else .fault .noStackEntry

/-- RET's stack test and pop (R131): `SP <- SP - 1; pc <- STK[SP]`. SP above 16 has no entry to read (log entry 8). -/
def returnFrom (s : State) : Answer :=
  if s.sp.toNat = 0 then .next (raise .stackUnderflow s)
  else if h : s.sp.toNat - 1 < stackDepth then
    .next { s with sp := s.sp - 1, pc := s.stkAt (s.sp.toNat - 1) h }
  else .fault .noStackEntry

/-! ## Fetch and the start of a Cycle (spec/40_fetch_dispatch.md) -/

/-- The inputs of the next Cycle: the host's oldest queued sample, else free values (R11, R12). -/
def nextPins (e : Env) : Pins :=
  match e.queue with
  | p :: _ => p
  | [] => { keys := Config.freeKeys e.cycle, rand := Config.freeRand e.cycle }

/-- The inputs of this Cycle are driven; the Cycle takes the next index, and the load window closes (R67). The CORE's
own state does not change. -/
def beginCycle (s : State) : State :=
  s.setEnv { s.env with
    pins := nextPins s.env, queue := s.env.queue.tail, cycle := s.env.cycle + 1, phase := .running }

/-- The word at `pc`, first byte in the high-order bits (R56, R111). -/
def fetchWord (s : State) : Word := wordOfBytes (s.mem.get s.pc.toNat) (s.mem.get (s.pc.toNat + 1))

/-- Fetch (R111): none when `pc + 1 > 4095` (R112). -/
def fetch (s : State) : Option State :=
  if s.pc.toNat + 1 ≥ memSize then none else some { s with ir := fetchWord s, pc := s.pc + 2 }

/-! ## Reset and the timer tick -/

/-- `Reset()` (R240). The stack entries keep their values (log entry 3) and neither memory is touched (R242); the
load window opens (R67). -/
def resetCore (s : State) : State :=
  { s with
    regs := Vector.replicate 16 0x00, i := 0x0000, dt := 0x00, st := 0x00, pc := BitVec.ofNat 16 progBase, sp := 0x00,
    ir := 0x0000, halt := false, err := 0, env := { s.env with phase := .ready } }

/-- A timer one lower, clamped at 0 (R222). -/
def tickByte (b : Byte) : Byte := if b.toNat > 0 then b - 1 else b

/-- `TickTimers()` (R222): it does not read HALT. -/
def tickTimers (s : State) : State := (s.setDt (tickByte s.dt)).setSt (tickByte s.st)

end Sys2Proof.Machine
end

