-- ==== Sys2Proof/Machine/Operands.lean ====
section
/-! DEFINITION. The operand forms: immediates, the I-based address, key index, font address, register blocks, digits, skips (spec/30_encoding.md R83; spec/43_display_key_timer_memory.md). -/

namespace Sys2Proof.Machine

/-- The base address `I` as an unbounded natural: sums with it are not wrapped before the bounds test (R16, R50). -/
def indexBase (s : State) : Nat := s.i.toNat

/-- A skip: `pc <- pc + 2` when the condition holds (R134 to R137). -/
def skipIf (c : Bool) (s : State) : State := if c then s.setPc (s.pc + 2) else s

/-- The low nibble of a register: a key index (R181) or a font digit (R188). -/
def lowNibble (b : Byte) : Nibble := b.extractLsb' 0 4

/-- Key `k` of a snapshot is pressed (R11). -/
def keyPressed (keys : BitVec 16) (k : Nibble) : Bool := keys.getLsbD k.toNat

/-- The lowest-numbered pressed key (R184); 0 where none is pressed. -/
def lowestKey (keys : BitVec 16) : Nibble :=
  BitVec.ofNat 4 (((List.range 16).find? (fun k => keys.getLsbD k)).getD 0)

/-- `FONT_BASE + FONT_STRIDE * digit` (R188). -/
def fontAddress (c : Config) (digit : Nibble) : Word := BitVec.ofNat 16 (c.fontBase + c.fontStride * digit.toNat)

/-- The three decimal digits of a byte, most significant first (R189). -/
def decimalDigits (b : Byte) : List Byte :=
  [BitVec.ofNat 8 (b.toNat / 100), BitVec.ofNat 8 (b.toNat / 10 % 10), BitVec.ofNat 8 (b.toNat % 10)]

/-- The values of `V[0]` to `V[x]`, inclusive (R190). -/
def blockValues (s : State) (x : Nibble) : List Byte :=
  (List.range (x.toNat + 1)).map (fun k => s.v (BitVec.ofNat 4 k))

/-- `V[k] <- MemRead(base + k, 1)` for `k` in 0 .. last, ascending (R191). -/
def loadBlock (s : State) (base : Nat) : Nat → State
  | 0 => s.setV 0 (s.mem.get base)
  | k + 1 => (loadBlock s base k).setV (BitVec.ofNat 4 (k + 1)) (s.mem.get (base + (k + 1)))

end Sys2Proof.Machine
end

