-- ==== Sys2Proof/Machine/ControlFlow.lean ====
section
/-! DEFINITION. The control-flow family (spec/41_control_flow.md R130 to R139). On entry `pc` holds `a + 2` (R22). -/

namespace Sys2Proof.Machine

/-- CLS (R130): every display cell becomes 0x00. -/
def execCls (s : State) : Answer := .next (s.setDisp [])

/-- RET (R131). -/
def execRet (s : State) : Answer := returnFrom s

/-- JP addr (R132). -/
def execJp (nnn : Addr) (s : State) : Answer := .next (s.setPc nnn.toWord)

/-- CALL addr (R133). -/
def execCall (nnn : Addr) (s : State) : Answer := callTo nnn.toWord s

/-- SE Vx, byte (R134). -/
def execSeByte (x : Nibble) (kk : Byte) (s : State) : Answer := .next (skipIf (s.v x == kk) s)

/-- SNE Vx, byte (R135). -/
def execSneByte (x : Nibble) (kk : Byte) (s : State) : Answer := .next (skipIf (s.v x != kk) s)

/-- SE Vx, Vy (R136). -/
def execSeReg (x y : Nibble) (s : State) : Answer := .next (skipIf (s.v x == s.v y) s)

/-- SNE Vx, Vy (R137). -/
def execSneReg (x y : Nibble) (s : State) : Answer := .next (skipIf (s.v x != s.v y) s)

/-- JP V0, addr (R138): a plain 16-bit sum, not reduced to 12 bits. -/
def execJpV0 (nnn : Addr) (s : State) : Answer := .next (s.setPc (nnn.toWord + (s.v 0).toWord))

end Sys2Proof.Machine
end

