-- ==== Sys2Proof/Machine/Flags.lean ====
section
/-! DEFINITION. The flag computations and the write of VF (spec/42_data_arithmetic.md R163, R164; spec/10_state.md R21). -/

namespace Sys2Proof.Machine

/-- The register number of `VF` (R21). -/
def vf : Nibble := 0xF

/-- A flag as the byte `VF` receives: exactly 0x00 or 0x01 (R21). -/
def flagByte (f : Bool) : Byte := if f then 0x01 else 0x00

/-- Carry out of an 8-bit addition: `sum > 255` (R156). -/
def carryOut (a b : Byte) : Bool := decide (a.toNat + b.toNat > 255)

/-- Not-borrow of `a - b`: `a >= b` (R157, R159). -/
def notBorrow (a b : Byte) : Bool := decide (a.toNat ≥ b.toNat)

/-- The bit a right shift moves out (R158). -/
def shiftOutRight (a : Byte) : Bool := a.getLsbD 0

/-- The bit a left shift moves out (R160). -/
def shiftOutLeft (a : Byte) : Bool := a.getLsbD 7

/-- The result to `V[x]`, then the flag to `VF`: the flag is what remains when `x` is 15 (R163). -/
def setResultFlag (x : Nibble) (result : Byte) (flag : Bool) (s : State) : State :=
  (s.setV x result).setV vf (flagByte flag)

end Sys2Proof.Machine
end

