-- ==== Sys2Proof/Machine/DataArith.lean ====
section
/-! DEFINITION. The data and arithmetic family (spec/42_data_arithmetic.md R150 to R164). -/

namespace Sys2Proof.Machine

/-- LD Vx, byte (R150). -/
def execLdByte (x : Nibble) (kk : Byte) (s : State) : Answer := .next (s.setV x kk)

/-- ADD Vx, byte (R151): no flag. -/
def execAddByte (x : Nibble) (kk : Byte) (s : State) : Answer := .next (s.setV x (s.v x + kk))

/-- LD Vx, Vy (R152). -/
def execLdReg (x y : Nibble) (s : State) : Answer := .next (s.setV x (s.v y))

/-- OR Vx, Vy (R153): no flag. -/
def execOrReg (x y : Nibble) (s : State) : Answer := .next (s.setV x (s.v x ||| s.v y))

/-- AND Vx, Vy (R154): no flag. -/
def execAndReg (x y : Nibble) (s : State) : Answer := .next (s.setV x (s.v x &&& s.v y))

/-- XOR Vx, Vy (R155): no flag. -/
def execXorReg (x y : Nibble) (s : State) : Answer := .next (s.setV x (s.v x ^^^ s.v y))

/-- ADD Vx, Vy (R156): VF is the carry out. -/
def execAddReg (x y : Nibble) (s : State) : Answer :=
  .next (setResultFlag x (s.v x + s.v y) (carryOut (s.v x) (s.v y)) s)

/-- SUB Vx, Vy (R157): VF is the not-borrow of `V[x] - V[y]`. -/
def execSubReg (x y : Nibble) (s : State) : Answer :=
  .next (setResultFlag x (s.v x - s.v y) (notBorrow (s.v x) (s.v y)) s)

/-- SHR Vx (R158): `y` is ignored. -/
def execShr (x _y : Nibble) (s : State) : Answer :=
  .next (setResultFlag x (s.v x >>> 1) (shiftOutRight (s.v x)) s)

/-- SUBN Vx, Vy (R159): VF is the not-borrow of `V[y] - V[x]`. -/
def execSubnReg (x y : Nibble) (s : State) : Answer :=
  .next (setResultFlag x (s.v y - s.v x) (notBorrow (s.v y) (s.v x)) s)

/-- SHL Vx (R160): `y` is ignored. -/
def execShl (x _y : Nibble) (s : State) : Answer :=
  .next (setResultFlag x (s.v x <<< 1) (shiftOutLeft (s.v x)) s)

/-- LD I, addr (R161). -/
def execLdI (nnn : Addr) (s : State) : Answer := .next (s.setI nnn.toWord)

/-- RND Vx, byte (R162): the input `RAND` of this Cycle and `kk`. -/
def execRnd (x : Nibble) (kk : Byte) (s : State) : Answer := .next (s.setV x (s.env.pins.rand &&& kk))

end Sys2Proof.Machine
end

