-- ==== Sys2Proof/Machine/DisplayMem.lean ====
section
/-! DEFINITION. The display, key, timer, index and memory-block family (spec/43_display_key_timer_memory.md R180 to R192), and what a word outside the opcode table does (spec/40_fetch_dispatch.md R114). -/

namespace Sys2Proof.Machine

/-! ## Drawing -/

/-- The display address of column `px`, row `py`, each reduced modulo its dimension (R51, R180). -/
def pixelAddress (c : Config) (px py : Nat) : Nat := (py % c.dispH) * c.dispW + px % c.dispW

/-- The cells a sprite row toggles: one for each bit of `b` that is 1, bit 7 leftmost, at `vx` on display row `py`. -/
def rowPixels (c : Config) (vx py : Nat) (b : Byte) : List Nat :=
  ((List.range 8).filter (fun k => b.getLsbD (7 - k))).map (fun k => pixelAddress c (vx + k) py)

/-- The cells a sprite toggles, row by row from the top (R180). -/
def spritePixels (c : Config) (vx : Nat) : Nat → List Byte → List Nat
  | _, [] => []
  | py, b :: bs => rowPixels c vx py b ++ spritePixels c vx (py + 1) bs

/-- One toggled cell: `if old == 1 then collision <- 1; DispWrite(adr, old xor 1)` for a cell of 0x00 or 0x01. A cell
of another value, which R52 leaves outside the spec, gets free values (`cycle` is their index; log entry 9). -/
def togglePixel (cycle : Nat) (d : Memory × Bool) (adr : Nat) : Memory × Bool :=
  let old := d.1.get adr
  if old = 0x00 ∨ old = 0x01 then (d.1.set adr (old ^^^ 0x01), d.2 || old == 0x01)
  else (d.1.set adr (Config.strayCell cycle adr old), d.2 || Config.strayHit cycle adr old)

/-- A list of cells toggled in order: the display and the collision flag (R180). -/
def drawPixels (cycle : Nat) (disp : Memory) (adrs : List Nat) : Memory × Bool :=
  adrs.foldl (togglePixel cycle) (disp, false)

/-- The whole effect of DRW once its bounds test has passed (R180): VF is written last, also when `n` is 0. -/
def drawSprite (c : Config) (x y n : Nibble) (s : State) : State :=
  let bytes := loadBytes s.mem (indexBase s) n.toNat
  let drawn := drawPixels s.env.cycle s.disp (spritePixels c (s.v x).toNat (s.v y).toNat bytes)
  (s.setDisp drawn.1).setV vf (flagByte drawn.2)

/-- DRW Vx, Vy, nibble (R180): no bounds error when `n` is 0. -/
def execDrw (x y n : Nibble) (s : State) : Answer :=
  guarded (indexBase s) n.toNat s (drawSprite hwConfig x y n s)

/-! ## Keys -/

/-- SKP Vx (R181). -/
def execSkp (x : Nibble) (s : State) : Answer :=
  .next (skipIf (keyPressed s.env.pins.keys (lowNibble (s.v x))) s)

/-- SKNP Vx (R182). -/
def execSknp (x : Nibble) (s : State) : Answer :=
  .next (skipIf (!keyPressed s.env.pins.keys (lowNibble (s.v x))) s)

/-- LD Vx, K (R184): back to the same instruction while no key is pressed, else the lowest pressed key. -/
def execLdVxK (x : Nibble) (s : State) : Answer :=
  .next (if s.env.pins.keys = 0x0000 then s.setPc (s.pc - 2)
    else s.setV x (lowestKey s.env.pins.keys).toByte)

/-! ## Timers -/

/-- LD Vx, DT (R183). -/
def execLdVxDt (x : Nibble) (s : State) : Answer := .next (s.setV x s.dt)

/-- LD DT, Vx (R185). -/
def execLdDtVx (x : Nibble) (s : State) : Answer := .next (s.setDt (s.v x))

/-- LD ST, Vx (R186). -/
def execLdStVx (x : Nibble) (s : State) : Answer := .next (s.setSt (s.v x))

/-- LD Vx, ST (R192): the operation with no row in the opcode table. -/
def execLdVxSt (x : Nibble) (s : State) : Answer := .next (s.setV x s.st)

/-! ## Index, font, digits, blocks -/

/-- ADD I, Vx (R187): modulo 65536, no flag. -/
def execAddI (x : Nibble) (s : State) : Answer := .next (s.setI (s.i + (s.v x).toWord))

/-- LD F, Vx (R188). -/
def execLdF (x : Nibble) (s : State) : Answer := .next (s.setI (fontAddress hwConfig (lowNibble (s.v x))))

/-- LD B, Vx (R189): `I` and the registers are unchanged. -/
def execLdB (x : Nibble) (s : State) : Answer :=
  guarded (indexBase s) 3 s (s.setMem (storeBytes s.mem (indexBase s) (decimalDigits (s.v x))))

/-- LD [I], Vx (R190): registers 0 to x, inclusive; `I` is unchanged. -/
def execLdMemVx (x : Nibble) (s : State) : Answer :=
  guarded (indexBase s) (x.toNat + 1) s (s.setMem (storeBytes s.mem (indexBase s) (blockValues s x)))

/-- LD Vx, [I] (R191): registers 0 to x, inclusive; `I` is unchanged. -/
def execLdVxMem (x : Nibble) (s : State) : Answer :=
  guarded (indexBase s) (x.toNat + 1) s (loadBlock s (indexBase s) x.toNat)

/-! ## Words outside the opcode table -/

/-- A fetched word that is no row of R95: LD Vx,ST where the parameter GET_SOUND_SEL selects it (R92, R192), else the
unknown-instruction handler (R114). -/
def execUndecoded (c : Config) (s : State) : Answer :=
  match decodeSound c s.ir with
  | some x => execLdVxSt x s
  | none => .next (reportUnknown s)

end Sys2Proof.Machine
end

