-- ==== Sys2Proof/Machine/Step.lean ====
section
/-! DEFINITION. One step: the operation `Cycle()` (spec/40_fetch_dispatch.md R110). -/

namespace Sys2Proof.Machine

/-- Fetch, decode, dispatch (R110, R111, R113, R114); a fetch out of range raises and changes nothing else (R112). -/
def runCycle (s : State) : Host.Outcome State Fault Refusal :=
  match fetch s with
  | none => .next (raise .outOfBoundsAccess s)
  | some s' =>
    match decode s'.ir with
    | .ok i => exec i s'
    | .error _ => execUndecoded hwConfig s'

/-- `Cycle()` (R110). On a never-reset CORE it is refused (R241); while halted it changes nothing (R116). -/
def step (s : State) : Host.Outcome State Fault Refusal :=
  match s.env.phase with
  | .constructed => .refused .neverReset
  | _ => if s.halt then .next s else runCycle (beginCycle s)

/-- The state with the instruction of a table row's bits stored where `step` fetches its next one, at `pc`, high byte
first (R56, R80). -/
def State.withFetchWord (s : State) (nbits w : Nat) : State :=
  s.setMem (storeBytes s.mem s.pc.toNat [(tableWord nbits w).hiByte, (tableWord nbits w).loByte])

end Sys2Proof.Machine
end

