-- ==== Sys2Proof/Machine/Driver.lean ====
section
/-! DEFINITION. The operations the host requests of the CORE, and runs made of them (spec/00_scope.md R6, R8; spec/20_memory.md R66, R67; spec/70_reset_and_hazards.md R241 to R243). -/

namespace Sys2Proof.Machine

/-- One operation of the host (R6, R8): any of them may come next. -/
inductive DriverOp where
  /-- `Reset()` (R240). -/
  | reset
  /-- `Cycle()` with these inputs presented (R110, R11, R12). -/
  | cycle (pins : Pins)
  /-- `TickTimers()` (R222). -/
  | tick
  /-- The host writes bytes into main memory from an address up (R67, R243). -/
  | load (base : Nat) (bytes : List Byte)
  deriving DecidableEq, Repr

/-- The host presents the inputs of the next Cycle. -/
def presentPins (p : Pins) (s : State) : State := s.setEnv { s.env with queue := p :: s.env.queue }

/-- `Cycle()` as the host requests it, with its inputs; a halted CORE samples none (R116). -/
def driverCycle (p : Pins) (s : State) : Answer := if s.halt then step s else step (presentPins p s)

/-- `TickTimers()` as the host requests it: refused on a never-reset CORE (R241). -/
def driverTick (s : State) : Answer :=
  match s.env.phase with
  | .constructed => .refused .neverReset
  | _ => .next (tickTimers s)

/-- A host write of main memory: only before the first Cycle following a Reset (R67), only below 4096 (U22). -/
def driverLoad (base : Nat) (bytes : List Byte) (s : State) : Answer :=
  match s.env.phase with
  | .running => .refused .loadWindowClosed
  | _ => if inRange base bytes.length then .next (s.setMem (storeBytes s.mem base bytes)) else .refused .loadOutOfRange

/-- One operation of the host, an atomic transition (R8). -/
def driverStep (op : DriverOp) (s : State) : Answer :=
  match op with
  | .reset => .next (resetCore s)
  | .cycle p => driverCycle p s
  | .tick => driverTick s
  | .load base bytes => driverLoad base bytes s

/-- A run: the host's operations one after another (R8), stopping at the first fault or refusal. -/
def driverRun (s : State) : List DriverOp → Answer
  | [] => .next s
  | op :: ops =>
    match driverStep op s with
    | .next s' => driverRun s' ops
    | .fault f => .fault f
    | .refused r => .refused r

/-- The host's read of a display cell (R66): it changes nothing; an address out of range fails (R55). -/
def displayRead (c : Config) (s : State) (adr : Nat) : Option Byte :=
  if adr < c.dispSize then some (s.disp.get adr) else none

/-- The CORE as constructed, before its first Reset (R241): the spec gives its fields no value and every operation but
Reset and load is refused, so the values here are read by nothing (log entry 7). -/
def constructed : State := State.reset.setEnv { State.reset.env with phase := .constructed }

/-- The customary 4x5 hexadecimal font of spec/93_implementation_defined.md G2, five bytes per digit: memory content
the host owes at FONT_BASE (R243); the CORE holds none of it (log entry 17). -/
def fontBytes : List Byte :=
  [0xF0, 0x90, 0x90, 0x90, 0xF0, 0x20, 0x60, 0x20, 0x20, 0x70, 0xF0, 0x10, 0xF0, 0x80, 0xF0, 0xF0, 0x10, 0xF0, 0x10, 0xF0] ++
  [0x90, 0x90, 0xF0, 0x10, 0x10, 0xF0, 0x80, 0xF0, 0x10, 0xF0, 0xF0, 0x80, 0xF0, 0x90, 0xF0, 0xF0, 0x10, 0x20, 0x40, 0x40] ++
  [0xF0, 0x90, 0xF0, 0x90, 0xF0, 0xF0, 0x90, 0xF0, 0x10, 0xF0, 0xF0, 0x90, 0xF0, 0x90, 0x90, 0xE0, 0x90, 0xE0, 0x90, 0xE0] ++
  [0xF0, 0x80, 0x80, 0x80, 0xF0, 0xE0, 0x90, 0x90, 0x90, 0xE0, 0xF0, 0x80, 0xF0, 0x80, 0xF0, 0xF0, 0x80, 0xF0, 0x80, 0x80]

/-- The boot of R243: font, program at 0x200, Reset. -/
def bootOps (program : List Byte) : List DriverOp :=
  [.load hwConfig.fontBase fontBytes, .load progBase program, .reset]

end Sys2Proof.Machine
end

