-- ==== Sys2Proof/Safety.lean ====
section
/-! DEFINITION. What claims are stated with: the parts of a state, frames, the invariants, the halted and the normally ended state. -/

namespace Sys2Proof.Machine

/-- The parts of the state other than the general registers. -/
inductive Part where
  | i | dt | st | pc | sp | stk | ir | status | mem | disp | env
  deriving DecidableEq, Repr

/-- Part `p` is the same in `t` as in `s`. A memory is compared by what every address reads as. -/
def Keeps (s t : State) (p : Part) : Prop :=
  match p with
  | .i => t.i = s.i
  | .dt => t.dt = s.dt
  | .st => t.st = s.st
  | .pc => t.pc = s.pc
  | .sp => t.sp = s.sp
  | .stk => t.stk = s.stk
  | .ir => t.ir = s.ir
  | .status => t.halt = s.halt ∧ t.err = s.err
  | .mem => ∀ a, t.mem.get a = s.mem.get a
  | .disp => ∀ a, t.disp.get a = s.disp.get a
  | .env => t.env = s.env

/-- The frame: from `s` to `t` every general register outside `regs` and every part outside `parts` is unchanged. -/
def Frame (regs : List Nibble) (parts : List Part) (s t : State) : Prop :=
  (∀ r, r ∉ regs → t.v r = s.v r) ∧ ∀ p, p ∉ parts → Keeps s t p

/-- Address `a` is one of `len` addresses from `base` up. -/
def within (base len a : Nat) : Prop := base ≤ a ∧ a < base + len

/-- Both memories are in canonical form (log entries 1 and 2). -/
def MemoriesWf (s : State) : Prop :=
  Memory.wf memSize s.mem = true ∧ Memory.wf hwConfig.dispSize s.disp = true

/-- Every display cell holds 0x00 or 0x01 (spec/20_memory.md R52). -/
def CellsBinary (s : State) : Prop := ∀ a, s.disp.get a = 0x00 ∨ s.disp.get a = 0x01

/-- SP is at most 16 (spec/10_state.md R27). -/
def StackBounded (s : State) : Prop := s.sp.toNat ≤ stackDepth

/-- Every meaningful stack entry is at most 4096 (spec/41_control_flow.md R131, R133). -/
def StackEntriesLow (s : State) : Prop := ∀ j, (h : j < stackDepth) → j < s.sp.toNat → (s.stkAt j h).toNat ≤ memSize

/-- `pc` is at most 0x10FE (spec/10_state.md R23). -/
def PcLow (s : State) : Prop := s.pc.toNat ≤ 0x10FE

/-- ERR holds 0 exactly while HALT is 0, and otherwise the code of one of the three fatal kinds
(spec/60_exceptions.md R210). -/
def StatusLegal (s : State) : Prop :=
  (s.halt = false ∧ s.err = 0) ∨
    (s.halt = true ∧ (s.err = ErrKind.stackOverflow.code ∨ s.err = ErrKind.stackUnderflow.code ∨
      s.err = ErrKind.outOfBoundsAccess.code))

/-- The CORE has been reset at least once (spec/70_reset_and_hazards.md R241). -/
def Booted (s : State) : Prop := s.env.phase ≠ .constructed

/-- A halted CORE has run a Cycle since its last Reset: HALT is written only by `raise` (R218) and cleared by Reset
(R240), so the host's load window is closed (spec/20_memory.md R67; log entry 18). -/
def HaltedRunning (s : State) : Prop := s.halt = true → s.env.phase = .running

/-- The invariants of the machine together; `DriverRunKeepsEveryInvariant` states that every run keeps them. -/
def MachineInv (s : State) : Prop :=
  MemoriesWf s ∧ CellsBinary s ∧ StackBounded s ∧ StackEntriesLow s ∧ PcLow s ∧ StatusLegal s ∧ HaltedRunning s

/-- A run has ended normally: HALT is 0 and the word at `pc` is `JP pc`, the convention of R246. -/
def EndedNormally (s : State) : Prop :=
  s.halt = false ∧ s.pc.toNat ≤ 0xFFE ∧ ∃ nnn : Addr, fetchWord s = encode (.jp nnn) ∧ nnn.toWord = s.pc

/-- The state an answer holds, if it is a next state. -/
def nextState? (a : Answer) : Option State :=
  match a with
  | .next s => some s
  | .fault _ => none
  | .refused _ => none

/-- A function on states carried through an answer. -/
def mapAnswer (f : State → State) (a : Answer) : Answer :=
  match a with
  | .next s => .next (f s)
  | .fault r => .fault r
  | .refused r => .refused r

/-- The state with other inputs standing at this Cycle. -/
def withPins (p : Pins) (s : State) : State := s.setEnv { s.env with pins := p }

/-- The state with the next fetch's two fields set otherwise. -/
def withFetch (pc ir : Word) (s : State) : State := { s with pc := pc, ir := ir }

/-- The six instructions that write VF as a side effect (spec/10_state.md R21). -/
def writesFlag (i : Instr) : Bool :=
  match i with
  | .addReg _ _ | .subReg _ _ | .shr _ _ | .subnReg _ _ | .shl _ _ | .drw _ _ _ => true
  | .cls | .ret | .jp _ | .call _ | .seByte _ _ | .sneByte _ _ | .seReg _ _ | .ldByte _ _ | .addByte _ _ => false
  | .ldReg _ _ | .orReg _ _ | .andReg _ _ | .xorReg _ _ | .sneReg _ _ | .ldI _ | .jpV0 _ | .rnd _ _ => false
  | .skp _ | .sknp _ | .ldVxDt _ | .ldVxK _ | .ldDtVx _ | .ldStVx _ | .addI _ | .ldF _ | .ldB _ => false
  | .ldMemVx _ | .ldVxMem _ => false

/-- Register `r` is a destination register of the instruction, VF as a side effect apart (spec/10_state.md R31). -/
def hasDestination (i : Instr) (r : Nibble) : Bool :=
  match i with
  | .ldByte x _ | .addByte x _ | .rnd x _ => r == x
  | .ldReg x _ | .orReg x _ | .andReg x _ | .xorReg x _ => r == x
  | .addReg x _ | .subReg x _ | .shr x _ | .subnReg x _ | .shl x _ => r == x
  | .ldVxDt x | .ldVxK x => r == x
  | .ldVxMem x => decide (r.toNat ≤ x.toNat)
  | .cls | .ret | .jp _ | .call _ | .seByte _ _ | .sneByte _ _ | .seReg _ _ | .sneReg _ _ | .ldI _ | .jpV0 _ => false
  | .drw _ _ _ | .skp _ | .sknp _ | .ldDtVx _ | .ldStVx _ | .addI _ | .ldF _ | .ldB _ | .ldMemVx _ => false

/-- The parts of the state other than general registers that the instruction's rule may write (spec/10_state.md R31,
spec/41_control_flow.md R139); HALT and ERR where it may raise. -/
def writesParts (i : Instr) : List Part :=
  match i with
  | .cls => [.disp]
  | .ret => [.pc, .sp, .status]
  | .call _ => [.pc, .sp, .stk, .status]
  | .jp _ | .jpV0 _ => [.pc]
  | .seByte _ _ | .sneByte _ _ | .seReg _ _ | .sneReg _ _ | .skp _ | .sknp _ | .ldVxK _ => [.pc]
  | .ldI _ | .addI _ | .ldF _ => [.i]
  | .drw _ _ _ => [.disp, .status]
  | .ldDtVx _ => [.dt]
  | .ldStVx _ => [.st]
  | .ldB _ | .ldMemVx _ => [.mem, .status]
  | .ldVxMem _ => [.status]
  | .ldByte _ _ | .addByte _ _ | .ldReg _ _ | .orReg _ _ | .andReg _ _ | .xorReg _ _ | .addReg _ _ => []
  | .subReg _ _ | .shr _ _ | .subnReg _ _ | .shl _ _ | .rnd _ _ | .ldVxDt _ => []

/-- The instruction reads the keypad (spec/00_scope.md R11). -/
def readsKeys (i : Instr) : Bool :=
  match i with
  | .skp _ | .sknp _ | .ldVxK _ => true
  | .cls | .ret | .jp _ | .call _ | .seByte _ _ | .sneByte _ _ | .seReg _ _ | .ldByte _ _ | .addByte _ _ => false
  | .ldReg _ _ | .orReg _ _ | .andReg _ _ | .xorReg _ _ | .addReg _ _ | .subReg _ _ | .shr _ _ | .subnReg _ _ => false
  | .shl _ _ | .sneReg _ _ | .ldI _ | .jpV0 _ | .rnd _ _ | .drw _ _ _ | .ldVxDt _ | .ldDtVx _ | .ldStVx _ => false
  | .addI _ | .ldF _ | .ldB _ | .ldMemVx _ | .ldVxMem _ => false

/-- The display cell of the pixel at column `px`, row `py` (spec/20_memory.md R51, decision D10). -/
def pixel (s : State) (px py : Nat) : Byte := s.disp.get (py * hwConfig.dispW + px)

/-- A sprite bit is set at display column `px`, row `py`: the sprite of `n` bytes at `I` of `s`, drawn at `(vx, vy)`
with every pixel wrapped on its own (spec/43_display_key_timer_memory.md R180), read backwards from the pixel. -/
def SpriteCovers (s : State) (vx vy n px py : Nat) : Prop :=
  let col := (px + hwConfig.dispW - vx % hwConfig.dispW) % hwConfig.dispW
  let row := (py + hwConfig.dispH - vy % hwConfig.dispH) % hwConfig.dispH
  px < hwConfig.dispW ∧ py < hwConfig.dispH ∧ col < 8 ∧ row < n ∧ (s.mem.get (s.i.toNat + row)).getLsbD (7 - col) = true

end Sys2Proof.Machine
end

