-- ==== Sys2Proof/Certificates/Slice0/Obligations.lean ====
section
/-! DEFINITION. The statements for the provers. Each docstring names the rule of spec/ it formalises; where it rests on a decision of the spec or on a choice of the model it says so. -/

open Sys2Proof Sys2Proof.Machine

/-! ## Encoding -/

/-- R80 to R83, R95: decoding the word of any instruction, or its two bytes as they stand in memory, gives the
instruction back with every operand. -/
def Obligations.DecodeOfEncodeIsTheInstruction : Prop :=
  ∀ (i : Instr) (rest : List Byte), decode (encode i) = .ok i ∧ decodeBytes (encodeBytes i ++ rest) = .ok (i, rest)

/-- R95, R96: a word that decodes is the word of the instruction it decodes to, so every bit of it is accounted for. -/
def Obligations.EncodeOfDecodeIsTheWord : Prop :=
  ∀ (w : Word) (i : Instr), decode w = .ok i → encode i = w

/-- R95: a word decodes to the first and only row whose `w and mask == match`; rows never overlap; a word that matches
no row is unknown. The selector bytes of rows 26 to 34 are the spec's general knowledge (R89, log entry 20), and the
full-word comparison of groups 0, 5 and 9 its decision D1. -/
def Obligations.DecodeFollowsTheOpcodeTable : Prop :=
  ∀ w : Word,
    (∀ r ∈ opcodeTable, ∀ r' ∈ opcodeTable, r.matchesWord w = true → r'.matchesWord w = true → r = r') ∧
    (∀ r ∈ opcodeTable, r.matchesWord w = true → ∃ i, decode w = .ok i ∧ i.rowNumber = r.number) ∧
    ((∀ r ∈ opcodeTable, r.matchesWord w = false) → ∃ e, decode w = .error e)

/-- R87: in group E the full low byte selects: 9E is SKP Vx, A1 is SKNP Vx, the other 254 values are unknown. -/
def Obligations.GroupESelectsByLowByte : Prop :=
  ∀ (x : Nibble) (kk : Byte),
    decode (packXKK 0xE x kk) =
      if kk = 0x9E then .ok (.skp x) else if kk = 0xA1 then .ok (.sknp x) else .error .unknownGroupE

/-- R85, R86, R88 (decision D1 for groups 0, 5 and 9, log entry 19; R86's list of unknown selectors is the spec's
derivation): which words of groups 0, 5, 8 and 9 are instructions, for every selector. -/
def Obligations.SecondarySelectorsOfGroups0589 : Prop :=
  (∀ nnn : Addr, decode (packNNN 0x0 nnn) =
      if nnn = 0x0E0 then .ok .cls else if nnn = 0x0EE then .ok .ret else .error .unknownGroup0) ∧
  (∀ x y n : Nibble, decode (packXYN 0x5 x y n) = if n = 0 then .ok (.seReg x y) else .error .unknownGroup5) ∧
  (∀ x y n : Nibble, decode (packXYN 0x9 x y n) = if n = 0 then .ok (.sneReg x y) else .error .unknownGroup9) ∧
  (∀ x y n : Nibble, n ∈ ([0x8, 0x9, 0xA, 0xB, 0xC, 0xD, 0xF] : List Nibble) →
      decode (packXYN 0x8 x y n) = .error .unknownGroup8) ∧
  (∀ x y : Nibble, decode (packXYN 0x8 x y 0x0) = .ok (.ldReg x y) ∧ decode (packXYN 0x8 x y 0x1) = .ok (.orReg x y) ∧
      decode (packXYN 0x8 x y 0x2) = .ok (.andReg x y) ∧ decode (packXYN 0x8 x y 0x3) = .ok (.xorReg x y) ∧
      decode (packXYN 0x8 x y 0x4) = .ok (.addReg x y) ∧ decode (packXYN 0x8 x y 0x5) = .ok (.subReg x y) ∧
      decode (packXYN 0x8 x y 0x6) = .ok (.shr x y) ∧ decode (packXYN 0x8 x y 0x7) = .ok (.subnReg x y) ∧
      decode (packXYN 0x8 x y 0xE) = .ok (.shl x y))

/-- Nine words of spec/95_test_vectors.md, among V-ENC1 to V-ENC29: a sanity statement. FF65 rests on the spec's general
knowledge of the Fx selectors (G1, D13, log entry 20), 0120 on its decision D1 (log entry 19), and F308 on the default of
GET_SOUND_SEL (D14, log entry 14). -/
def Obligations.SampleWordsDecode : Prop :=
  decode 0x00E0 = .ok .cls ∧ decode 0x1234 = .ok (.jp 0x234) ∧ decode 0x3A42 = .ok (.seByte 10 0x42) ∧
  decode 0x8AB4 = .ok (.addReg 10 11) ∧ decode 0xD125 = .ok (.drw 1 2 5) ∧ decode 0xE19E = .ok (.skp 1) ∧
  decode 0xFF65 = .ok (.ldVxMem 15) ∧ decode 0x0120 = .error .unknownGroup0 ∧ decode 0xF308 = .error .unknownGroupF

/-! ## The Cycle -/

/-- R110, R111, R113: where the two bytes at `pc` decode to `i`, a step is `exec i` of the state with this Cycle's
inputs driven (`beginCycle`), IR the fetched word and `pc` advanced by 2. -/
def Obligations.StepRunsTheDecodedInstruction : Prop :=
  ∀ (s : State) (i : Instr) (w : Word), Booted s → s.halt = false → s.pc.toNat + 1 ≤ 4095 →
    w = wordOfBytes (s.mem.get s.pc.toNat) (s.mem.get (s.pc.toNat + 1)) → decode w = .ok i →
    step s = exec i { beginCycle s with ir := w, pc := s.pc + 2 }

/-- R11, R12, R22: a Cycle requested with inputs `p` runs the decoded instruction in a state whose inputs are `p`, whose
`pc` is `a + 2` and whose IR is the word, all else as before. The queue of inputs is the model's own (log entries 4, 5). -/
def Obligations.CycleRunsWithTheInputsPresented : Prop :=
  ∀ (s : State) (p : Pins) (i : Instr), Booted s → s.halt = false → s.pc.toNat + 1 ≤ 4095 →
    decode (fetchWord s) = .ok i →
    ∃ u, driverStep (.cycle p) s = exec i u ∧ u.env.pins = p ∧ u.env.queue = s.env.queue ∧
      u.env.reports = s.env.reports ∧ u.ir = fetchWord s ∧ u.pc.toNat = s.pc.toNat + 2 ∧
      Frame [] [.pc, .ir, .env] s u

/-- R111: Fetch reads the bytes at `pc` and `pc + 1`, combines them with the first in the high-order 8 bits, stores the
word in IR and advances `pc` by exactly 2. R111, R112 and R218 (decisions D6 and D3, log entries 19 and 23): where
`pc + 1` is above 4095 the Cycle raises OutOfBoundsAccess before any change of IR or `pc`. -/
def Obligations.FetchIsBigEndianAndAdvancesByTwo : Prop :=
  ∀ s : State,
    (s.pc.toNat + 1 ≤ 4095 → ∃ t, fetch s = some t ∧
      t.ir.toNat = (s.mem.get s.pc.toNat).toNat * 256 + (s.mem.get (s.pc.toNat + 1)).toNat ∧
      t.pc.toNat = s.pc.toNat + 2 ∧ Frame [] [.pc, .ir] s t) ∧
    (s.pc.toNat + 1 > 4095 → fetch s = none ∧ runCycle s = .next (raise .outOfBoundsAccess s))

/-- R112 (decisions D6, D3, D4): a fetch at `pc >= 4095` raises OutOfBoundsAccess; `pc` and IR keep their values and
nothing else changes. The inputs of the Cycle (`env`) are the model's own. -/
def Obligations.FetchOutOfRangeHalts : Prop :=
  ∀ s : State, Booted s → s.halt = false → s.pc.toNat ≥ 4095 →
    ∃ t, step s = .next t ∧ t.halt = true ∧ t.err = 4 ∧ t.env.reports = s.env.reports ∧ Frame [] [.status, .env] s t

/-- R114 (with GET_SOUND_SEL absent, decision D14; the event's payload is decision D28, and the list it is kept in is the
model's own, log entry 12): a word that is no instruction is reported with its value and changes nothing but IR and `pc`,
both written by Fetch; HALT and ERR stay. -/
def Obligations.UnknownWordIsAReportedNoOp : Prop :=
  ∀ (s : State) (e : DecodeError), Booted s → s.halt = false → s.pc.toNat + 1 ≤ 4095 →
    decode (fetchWord s) = .error e →
    ∃ t, step s = .next t ∧ t.ir = fetchWord s ∧ t.pc.toNat = s.pc.toNat + 2 ∧
      t.env.reports = s.env.reports ++ [fetchWord s] ∧ Frame [] [.pc, .ir, .env] s t

/-- R116 (decision D3): a Cycle while halted changes nothing at all, whatever inputs the host presents. -/
def Obligations.HaltedCycleChangesNothing : Prop :=
  ∀ (s : State) (p : Pins), Booted s → s.halt = true →
    step s = .next s ∧ driverStep (.cycle p) s = .next s

/-- R241 (decision D9): Cycle and TickTimers before the first Reset are refused; Reset is what ends that state. -/
def Obligations.NeverResetCoreRefusesCycleAndTick : Prop :=
  ∀ s : State, ¬ Booted s →
    step s = .refused .neverReset ∧ driverStep .tick s = .refused .neverReset ∧
      ∃ t, driverStep .reset s = .next t ∧ Booted t

/-- R240 and R242 (decision D8 for I, HALT and ERR): the values Reset leaves, and both memories untouched. Of the stack
entries it says nothing (R240). -/
def Obligations.ResetLeavesTheStatedValues : Prop :=
  ∀ s : State, ∃ t, driverStep .reset s = .next t ∧ (∀ r, t.v r = 0x00) ∧ t.pc = 0x0200 ∧ t.i = 0x0000 ∧
    t.dt = 0x00 ∧ t.st = 0x00 ∧ t.sp = 0x00 ∧ t.ir = 0x0000 ∧ t.halt = false ∧ t.err = 0 ∧
    Keeps s t .mem ∧ Keeps s t .disp

/-- The machine's invariants hold right after reset (R240; both memories empty there, log entries 1 and 2). -/
def Obligations.ResetMeetsEveryInvariant : Prop :=
  MachineInv State.reset ∧ Booted State.reset

/-- R67 and R243 (decision D29, U22): before the first Cycle following a Reset the host's load puts its bytes at ascending
addresses and changes nothing else, and one that reaches above 4095 is refused; once a Cycle has run every load is
refused (log entry 18). -/
def Obligations.ProgramLoadOnlyBeforeTheFirstCycle : Prop :=
  ∀ (s : State) (base : Nat) (bytes : List Byte),
    (s.env.phase ≠ .running → base + bytes.length ≤ 4096 →
      ∃ t, driverStep (.load base bytes) s = .next t ∧
        (∀ k (h : k < bytes.length), t.mem.get (base + k) = bytes[k]) ∧
        (∀ a, ¬ within base bytes.length a → t.mem.get a = s.mem.get a) ∧ Frame [] [.mem] s t) ∧
    (s.env.phase ≠ .running → bytes ≠ [] → 4096 < base + bytes.length →
      driverStep (.load base bytes) s = .refused .loadOutOfRange) ∧
    (∀ t, Booted s → s.halt = false → step s = .next t →
      driverStep (.load base bytes) t = .refused .loadWindowClosed)

/-- R222 (decision D3 for the halted CORE): `k` timer ticks leave each timer `k` lower, clamped at 0, and change nothing
else, halted or not. -/
def Obligations.TimerTicksCountDownAndClamp : Prop :=
  ∀ (k : Nat) (s : State), Booted s →
    ∃ t, driverRun s (List.replicate k .tick) = .next t ∧ t.dt.toNat = s.dt.toNat - k ∧ t.st.toNat = s.st.toNat - k ∧
      Frame [] [.dt, .st] s t

/-! ## Control flow -/

/-- R130: CLS clears every display cell and changes nothing else. -/
def Obligations.ClearDisplayZeroesEveryCell : Prop :=
  decode 0x00E0 = .ok .cls ∧
  ∀ s : State, ∃ t, exec .cls s = .next t ∧ (∀ a, t.disp.get a = 0x00) ∧ Frame [] [.disp] s t

/-- R132: JP sets `pc` to exactly `nnn` and changes nothing else. -/
def Obligations.JumpSetsPcToTheAddress : Prop :=
  ∀ (nnn : Addr) (s : State), decode (packNNN 0x1 nnn) = .ok (.jp nnn) ∧
    ∃ t, exec (.jp nnn) s = .next t ∧ t.pc.toNat = nnn.toNat ∧ Frame [] [.pc] s t

/-- R138 (decision D21): JP V0 sets `pc` to the sum `nnn + V[0]`, not reduced to 12 bits and at most 0x10FE. -/
def Obligations.JumpWithOffsetAddsV0 : Prop :=
  ∀ (nnn : Addr) (s : State), ∃ t, exec (.jpV0 nnn) s = .next t ∧ t.pc.toNat = nnn.toNat + (s.v 0).toNat ∧
    t.pc.toNat ≤ 0x10FE ∧ Frame [] [.pc] s t

/-- R133 and R213 (decisions D31, D3, D4): CALL pushes the advanced `pc` and jumps while SP is below 16; with SP = 16 it
raises StackOverflow and writes nothing; an SP above 16, which the spec gives no meaning, is the model's named fault
(log entry 8). -/
def Obligations.CallPushesOrOverflows : Prop :=
  ∀ (nnn : Addr) (s : State),
    (∀ h : s.sp.toNat < 16, ∃ t, exec (.call nnn) s = .next t ∧ t.pc.toNat = nnn.toNat ∧ t.sp.toNat = s.sp.toNat + 1 ∧
      t.stkAt s.sp.toNat h = s.pc ∧ (∀ j (hj : j < 16), j ≠ s.sp.toNat → t.stkAt j hj = s.stkAt j hj) ∧
      Frame [] [.pc, .sp, .stk] s t) ∧
    (s.sp.toNat = 16 → ∃ t, exec (.call nnn) s = .next t ∧ t.halt = true ∧ t.err = 2 ∧ Frame [] [.status] s t) ∧
    (16 < s.sp.toNat → exec (.call nnn) s = .fault .noStackEntry)

/-- R131 and R214 (decisions D31, D3, D4): RET pops the newest entry into `pc` and leaves every entry in place; with
SP = 0 it raises StackUnderflow and writes nothing; an SP above 16 is the model's named fault (log entry 8). -/
def Obligations.ReturnPopsOrUnderflows : Prop :=
  ∀ s : State,
    (∀ h : s.sp.toNat - 1 < 16, 0 < s.sp.toNat → ∃ t, exec .ret s = .next t ∧ t.pc = s.stkAt (s.sp.toNat - 1) h ∧
      t.sp.toNat = s.sp.toNat - 1 ∧ Frame [] [.pc, .sp] s t) ∧
    (s.sp.toNat = 0 → ∃ t, exec .ret s = .next t ∧ t.halt = true ∧ t.err = 3 ∧ Frame [] [.status] s t) ∧
    (16 < s.sp.toNat → exec .ret s = .fault .noStackEntry)

/-- R131 (spec/95_test_vectors.md S3): a RET fetched from anywhere right after a CALL restores `pc` to the instruction
following the CALL, and SP and every entry below it to what they were. -/
def Obligations.ReturnUndoesCall : Prop :=
  ∀ (nnn : Addr) (s : State) (pc ir : Word), s.sp.toNat < 16 →
    ∃ t u, exec (.call nnn) s = .next t ∧ exec .ret (withFetch pc ir t) = .next u ∧ u.pc = s.pc ∧ u.sp = s.sp ∧
      (∀ j (hj : j < 16), j < s.sp.toNat → u.stkAt j hj = s.stkAt j hj) ∧ Frame [] [.stk, .ir] s u

/-- R134, R135: SE and SNE against an immediate advance `pc` by 2 more exactly when the register equals, or differs from,
the immediate, and change nothing else; with the same `x` and `kk` exactly one of the two skips. -/
def Obligations.ImmediateSkipsAdvanceOnTheirCondition : Prop :=
  ∀ (x : Nibble) (kk : Byte) (s : State),
    (decode (packXKK 0x3 x kk) = .ok (.seByte x kk) ∧ ∃ t, exec (.seByte x kk) s = .next t ∧
      t.pc = (if s.v x = kk then s.pc + 2 else s.pc) ∧ Frame [] [.pc] s t) ∧
    (decode (packXKK 0x4 x kk) = .ok (.sneByte x kk) ∧ ∃ t, exec (.sneByte x kk) s = .next t ∧
      t.pc = (if s.v x ≠ kk then s.pc + 2 else s.pc) ∧ Frame [] [.pc] s t)

/-- R136, R137 (that `n` must be 0 in their words is decision D1, R88): SE and SNE against a register advance `pc` by 2
more exactly when the registers are equal, or differ, and change nothing else; the words with `n` not 0 are unknown. -/
def Obligations.RegisterSkipsAdvanceOnTheirCondition : Prop :=
  ∀ (x y n : Nibble) (s : State),
    (decode (packXYN 0x5 x y 0) = .ok (.seReg x y) ∧ ∃ t, exec (.seReg x y) s = .next t ∧
      t.pc = (if s.v x = s.v y then s.pc + 2 else s.pc) ∧ Frame [] [.pc] s t) ∧
    (decode (packXYN 0x9 x y 0) = .ok (.sneReg x y) ∧ ∃ t, exec (.sneReg x y) s = .next t ∧
      t.pc = (if s.v x ≠ s.v y then s.pc + 2 else s.pc) ∧ Frame [] [.pc] s t) ∧
    (n ≠ 0 → decode (packXYN 0x5 x y n) = .error .unknownGroup5 ∧ decode (packXYN 0x9 x y n) = .error .unknownGroup9)

/-- R139: the `pc` a Cycle leaves, as a law over all instructions: one that is no jump, call, return, skip or key wait
leaves `pc = a + 2`; a skip leaves `a + 2` or `a + 4`; a key wait leaves `a` or `a + 2`. -/
def Obligations.PcLawOfEveryInstruction : Prop :=
  ∀ (s t : State) (i : Instr), s.halt = false → s.pc.toNat + 1 ≤ 4095 → decode (fetchWord s) = .ok i →
    step s = .next t →
    match i with
    | .ret | .jp _ | .call _ | .jpV0 _ => True
    | .seByte _ _ | .sneByte _ _ | .seReg _ _ | .sneReg _ _ | .skp _ | .sknp _ =>
        t.pc.toNat = s.pc.toNat + 2 ∨ t.pc.toNat = s.pc.toNat + 4
    | .ldVxK _ => t.pc = s.pc ∨ t.pc.toNat = s.pc.toNat + 2
    | _ => t.pc.toNat = s.pc.toNat + 2

/-! ## Data and arithmetic -/

/-- R150, R151, R152: load immediate, add immediate truncated to 8 bits with no flag register effect, copy. Only `V[x]`
changes; that the two loads leave VF alone is decision D27 (R164, log entry 19). -/
def Obligations.LoadsAndAddImmediateWriteVxAlone : Prop :=
  ∀ (x y : Nibble) (kk : Byte) (s : State),
    (decode (packXKK 0x6 x kk) = .ok (.ldByte x kk) ∧
      ∃ t, exec (.ldByte x kk) s = .next t ∧ t.v x = kk ∧ Frame [x] [] s t) ∧
    (decode (packXKK 0x7 x kk) = .ok (.addByte x kk) ∧ ∃ t, exec (.addByte x kk) s = .next t ∧
      (t.v x).toNat = ((s.v x).toNat + kk.toNat) % 256 ∧ Frame [x] [] s t) ∧
    (decode (packXYN 0x8 x y 0) = .ok (.ldReg x y) ∧
      ∃ t, exec (.ldReg x y) s = .next t ∧ t.v x = s.v y ∧ Frame [x] [] s t)

/-- R153, R154, R155 (decision D27: VF is not written): OR, AND and XOR, bit by bit. Only `V[x]` changes. -/
def Obligations.BitwiseOperationsWriteVxAlone : Prop :=
  ∀ (x y : Nibble) (s : State),
    (∃ t, exec (.orReg x y) s = .next t ∧ Frame [x] [] s t ∧
      ∀ k, (t.v x).getLsbD k = ((s.v x).getLsbD k || (s.v y).getLsbD k)) ∧
    (∃ t, exec (.andReg x y) s = .next t ∧ Frame [x] [] s t ∧
      ∀ k, (t.v x).getLsbD k = ((s.v x).getLsbD k && (s.v y).getLsbD k)) ∧
    (∃ t, exec (.xorReg x y) s = .next t ∧ Frame [x] [] s t ∧
      ∀ k, (t.v x).getLsbD k = ((s.v x).getLsbD k ^^ (s.v y).getLsbD k))

/-- R156, R157, R159, with decision D7 for `x = 15`: ADD, SUB and SUBN write the result modulo 256 to `V[x]` and the
carry or not-borrow of the operands as they were to VF; when `x` is 15 the flag is what VF holds. Nothing else changes. -/
def Obligations.AddAndSubtractSetVf : Prop :=
  ∀ (x y : Nibble) (s : State),
    (∃ t, exec (.addReg x y) s = .next t ∧
      (x ≠ 15 → (t.v x).toNat = ((s.v x).toNat + (s.v y).toNat) % 256) ∧
      t.v 15 = (if (s.v x).toNat + (s.v y).toNat > 255 then 0x01 else 0x00) ∧ Frame [x, 15] [] s t) ∧
    (∃ t, exec (.subReg x y) s = .next t ∧
      (x ≠ 15 → ((t.v x).toNat : Int) = ((s.v x).toNat - (s.v y).toNat : Int) % 256) ∧
      t.v 15 = (if (s.v x).toNat ≥ (s.v y).toNat then 0x01 else 0x00) ∧ Frame [x, 15] [] s t) ∧
    (∃ t, exec (.subnReg x y) s = .next t ∧
      (x ≠ 15 → ((t.v x).toNat : Int) = ((s.v y).toNat - (s.v x).toNat : Int) % 256) ∧
      t.v 15 = (if (s.v y).toNat ≥ (s.v x).toNat then 0x01 else 0x00) ∧ Frame [x, 15] [] s t)

/-- R158, R160, with decision D7 for `x = 15`: SHR and SHL move `V[x]` by one place, the bit moved out goes to VF, and the
`y` field has no effect. Nothing else changes. -/
def Obligations.ShiftsSetVfAndIgnoreY : Prop :=
  ∀ (x y y' : Nibble) (s : State),
    (∃ t, exec (.shr x y) s = .next t ∧ exec (.shr x y') s = .next t ∧
      (x ≠ 15 → (t.v x).toNat = (s.v x).toNat / 2) ∧ (t.v 15).toNat = (s.v x).toNat % 2 ∧ Frame [x, 15] [] s t) ∧
    (∃ t, exec (.shl x y) s = .next t ∧ exec (.shl x y') s = .next t ∧
      (x ≠ 15 → (t.v x).toNat = (s.v x).toNat * 2 % 256) ∧ (t.v 15).toNat = (s.v x).toNat / 128 ∧
      Frame [x, 15] [] s t)

/-- R21, R180 (decision D5 for what the raise leaves, log entry 19): each of the six flag writers leaves VF exactly 0x00
or 0x01 and does not raise, but for a DRW of at least one row that reaches above address 4095; that one raises and leaves
VF alone. -/
def Obligations.FlagWritersLeaveVfZeroOrOne : Prop :=
  ∀ (i : Instr) (s : State), writesFlag i = true →
    ((∀ x y n, i = .drw x y n → n = 0 ∨ s.i.toNat + n.toNat ≤ 4096) →
      ∃ t, exec i s = .next t ∧ (t.v 15 = 0x00 ∨ t.v 15 = 0x01) ∧ Keeps s t .status) ∧
    (∀ x y n, i = .drw x y n → 0 < n.toNat → 4096 < s.i.toNat + n.toNat →
      ∃ t, exec i s = .next t ∧ t.halt = true ∧ t.err = 4 ∧ t.v 15 = s.v 15)

/-- R161: LD I sets `I` to `nnn` (its top four bits become 0) and changes nothing else. -/
def Obligations.LoadIndexImmediate : Prop :=
  ∀ (nnn : Addr) (s : State), decode (packNNN 0xA nnn) = .ok (.ldI nnn) ∧
    ∃ t, exec (.ldI nnn) s = .next t ∧ t.i.toNat = nnn.toNat ∧ Frame [] [.i] s t

/-- R162: RND writes the byte drawn AND `kk` to `V[x]` alone, and the result can be any value `v` with
`v and (not kk) == 0`, whatever else the state is. -/
def Obligations.RandomAndAdmitsEveryMaskedByte : Prop :=
  ∀ (x : Nibble) (kk : Byte) (s : State), decode (packXKK 0xC x kk) = .ok (.rnd x kk) ∧
    (∃ t, exec (.rnd x kk) s = .next t ∧ t.v x = (s.env.pins.rand &&& kk) ∧ t.v x &&& ~~~kk = 0x00 ∧
      Frame [x] [] s t) ∧
    ∀ v : Byte, v &&& ~~~kk = 0x00 →
      ∃ r t, exec (.rnd x kk) (withPins { s.env.pins with rand := r } s) = .next t ∧ t.v x = v

/-! ## Display -/

/-- R180 (decisions D10, D11) with the cell premise of R52: a DRW whose sprite bytes are in range toggles exactly the
pixels its sprite bits cover, each coordinate wrapped on its own, sets VF to 1 exactly when some pixel went from 1 to 0,
else to 0, and changes nothing else. -/
def Obligations.DrawTogglesExactlyTheCoveredPixels : Prop :=
  ∀ (x y n : Nibble) (s : State), CellsBinary s → (n = 0 ∨ s.i.toNat + n.toNat ≤ 4096) →
    ∃ t, exec (.drw x y n) s = .next t ∧
      (∀ px py, px < hwConfig.dispW → py < hwConfig.dispH →
        (SpriteCovers s (s.v x).toNat (s.v y).toNat n.toNat px py →
          pixel t px py = pixel s px py ^^^ 0x01) ∧
        (¬ SpriteCovers s (s.v x).toNat (s.v y).toNat n.toNat px py →
          pixel t px py = pixel s px py)) ∧
      (∀ a, hwConfig.dispSize ≤ a → t.disp.get a = s.disp.get a) ∧
      (t.v 15 = 0x01 ∨ t.v 15 = 0x00) ∧
      (t.v 15 = 0x01 ↔ ∃ px py, SpriteCovers s (s.v x).toNat (s.v y).toNat n.toNat px py ∧
        pixel s px py = 0x01) ∧
      Frame [15] [.disp] s t

/-- R180, R52: without the cell premise a DRW in range still runs: a pixel the sprite does not cover is unchanged, a
covered cell of 0x00 or 0x01 is toggled, and VF is 0x00 or 0x01. Of a covered cell of any other value nothing is said: its
value is free (log entry 9). -/
def Obligations.DrawCompletesOnEveryDisplay : Prop :=
  ∀ (x y n : Nibble) (s : State), (n = 0 ∨ s.i.toNat + n.toNat ≤ 4096) →
    ∃ t, exec (.drw x y n) s = .next t ∧
      (∀ px py, px < hwConfig.dispW → py < hwConfig.dispH → ¬ SpriteCovers s (s.v x).toNat (s.v y).toNat n.toNat px py →
        pixel t px py = pixel s px py) ∧
      (∀ px py, SpriteCovers s (s.v x).toNat (s.v y).toNat n.toNat px py →
        (pixel s px py = 0x00 → pixel t px py = 0x01) ∧
        (pixel s px py = 0x01 → pixel t px py = 0x00)) ∧
      (∀ a, hwConfig.dispSize ≤ a → t.disp.get a = s.disp.get a) ∧
      (t.v 15 = 0x00 ∨ t.v 15 = 0x01) ∧ Frame [15] [.disp] s t

/-- R180: a DRW of no rows reads nothing, draws nothing, never raises whatever `I` holds, and sets VF to 0. That its loop
body never runs is the spec's derivation. -/
def Obligations.DrawOfNoRowsClearsVfAlone : Prop :=
  ∀ (x y : Nibble) (s : State), ∃ t, exec (.drw x y 0) s = .next t ∧ t.v 15 = 0x00 ∧ Frame [15] [] s t

/-- R180 (spec/95_test_vectors.md S8; decisions D10, D11): drawing the same sprite twice at the same coordinates gives the
display back; on a clear display the first draw sets VF to 0 and the second to 1 exactly when the sprite has a set bit. -/
def Obligations.DrawingTwiceRestoresTheDisplay : Prop :=
  ∀ (x y n : Nibble) (s : State) (pc ir : Word), CellsBinary s → (n = 0 ∨ s.i.toNat + n.toNat ≤ 4096) → x ≠ 15 → y ≠ 15 →
    ∃ t u, exec (.drw x y n) s = .next t ∧ exec (.drw x y n) (withFetch pc ir t) = .next u ∧
      (∀ a, u.disp.get a = s.disp.get a) ∧
      ((∀ a, s.disp.get a = 0x00) → t.v 15 = 0x00 ∧
        (u.v 15 = 0x01 ↔ ∃ r, r < n.toNat ∧ s.mem.get (s.i.toNat + r) ≠ 0x00))

/-! ## Keys and timers -/

/-- R181, R182 (decisions D16, D23): the key named by the low nibble of `V[x]`, in the snapshot of this Cycle. Only `pc`
changes. -/
def Obligations.KeySkipsTestTheNamedKey : Prop :=
  ∀ (x : Nibble) (s : State),
    (∃ t, exec (.skp x) s = .next t ∧
      t.pc = (if s.env.pins.keys.getLsbD ((s.v x).toNat % 16) = true then s.pc + 2 else s.pc) ∧ Frame [] [.pc] s t) ∧
    (∃ t, exec (.sknp x) s = .next t ∧
      t.pc = (if s.env.pins.keys.getLsbD ((s.v x).toNat % 16) = false then s.pc + 2 else s.pc) ∧ Frame [] [.pc] s t)

/-- R184 (decision D15): with no key pressed the key wait sets `pc` back by 2 and changes nothing else; with a key pressed
`V[x]` becomes the lowest pressed key's number and nothing else changes. -/
def Obligations.KeyWaitPollsForTheLowestKey : Prop :=
  ∀ (x : Nibble) (s : State),
    (s.env.pins.keys = 0x0000 → ∃ t, exec (.ldVxK x) s = .next t ∧ t.pc = s.pc - 2 ∧ Frame [] [.pc] s t) ∧
    (s.env.pins.keys ≠ 0x0000 → ∃ t, exec (.ldVxK x) s = .next t ∧ (t.v x).toNat < 16 ∧
      s.env.pins.keys.getLsbD (t.v x).toNat = true ∧
      (∀ k, k < (t.v x).toNat → s.env.pins.keys.getLsbD k = false) ∧ Frame [x] [] s t)

/-- R183, R185, R186: the moves between a register and the timers. Each writes its destination alone. The selector bytes
of their encodings are general knowledge (R89) and not part of this statement. -/
def Obligations.TimerMovesWriteTheirDestinationAlone : Prop :=
  ∀ (x : Nibble) (s : State),
    (∃ t, exec (.ldVxDt x) s = .next t ∧ t.v x = s.dt ∧ Frame [x] [] s t) ∧
    (∃ t, exec (.ldDtVx x) s = .next t ∧ t.dt = s.v x ∧ Frame [] [.dt] s t) ∧
    (∃ t, exec (.ldStVx x) s = .next t ∧ t.st = s.v x ∧ Frame [] [.st] s t)

/-- R92, R114, R192 (decision D14, log entry 15): under a well-formed parameter record with GET_SOUND_SEL = `sel`, the
word `Fx sel` is outside the opcode table and loads the sound timer into `V[x]`, and any other word outside the table only
reports; with the parameter absent every word outside the table only reports. -/
def Obligations.GetSoundTimerFollowsItsParameter : Prop :=
  (∀ (c : Config) (sel : Byte) (x : Nibble) (s : State), c.wf = true → c.getSoundSel = some sel →
    s.ir = packXKK 0xF x sel →
    decode s.ir = .error .unknownGroupF ∧ ∃ t, execUndecoded c s = .next t ∧ t.v x = s.st ∧ Frame [x] [] s t) ∧
  (∀ (c : Config) (sel : Byte) (s : State) (e : DecodeError), c.getSoundSel = some sel → decode s.ir = .error e →
    (∀ x, s.ir ≠ packXKK 0xF x sel) →
    ∃ t, execUndecoded c s = .next t ∧ t.env.reports = s.env.reports ++ [s.ir] ∧ Frame [] [.env] s t) ∧
  (∀ (c : Config) (s : State), c.getSoundSel = none →
    ∃ t, execUndecoded c s = .next t ∧ t.env.reports = s.env.reports ++ [s.ir] ∧ Frame [] [.env] s t)

/-! ## Index, digits, blocks -/

/-- R187 (decision D20): ADD I adds `V[x]` to `I` modulo 65536 and writes no flag. -/
def Obligations.AddToIndexWrapsAt16Bits : Prop :=
  ∀ (x : Nibble) (s : State), ∃ t, exec (.addI x) s = .next t ∧
    t.i.toNat = (s.i.toNat + (s.v x).toNat) % 65536 ∧ Frame [] [.i] s t

/-- R188 (decision D17: FONT_BASE 0x000, stride 5; log entry 14): LD F points `I` at the glyph of the low nibble of
`V[x]` and accesses no memory. -/
def Obligations.FontAddressOfLowNibble : Prop :=
  ∀ (x : Nibble) (s : State), ∃ t, exec (.ldF x) s = .next t ∧
    t.i.toNat = hwConfig.fontBase + hwConfig.fontStride * ((s.v x).toNat % 16) ∧ Frame [] [.i] s t

/-- R189 (decision D18): with `I + 2` in range LD B stores hundreds, tens and ones digit at `I`, `I + 1`, `I + 2`, each
below 10, and every other byte and everything else is unchanged. -/
def Obligations.BcdStoresThreeDigits : Prop :=
  ∀ (x : Nibble) (s : State), s.i.toNat + 2 ≤ 4095 →
    ∃ t, exec (.ldB x) s = .next t ∧
      100 * (t.mem.get s.i.toNat).toNat + 10 * (t.mem.get (s.i.toNat + 1)).toNat +
        (t.mem.get (s.i.toNat + 2)).toNat = (s.v x).toNat ∧
      (t.mem.get s.i.toNat).toNat ≤ 2 ∧ (t.mem.get (s.i.toNat + 1)).toNat < 10 ∧
      (t.mem.get (s.i.toNat + 2)).toNat < 10 ∧
      (∀ a, ¬ within s.i.toNat 3 a → t.mem.get a = s.mem.get a) ∧ Frame [] [.mem] s t

/-- R190 (decision D19: `I` unchanged): with `I + x` in range the block store writes `V[k]` at `I + k` for every `k` in
0 .. x, and every other byte and everything else is unchanged. -/
def Obligations.BlockStoreWritesRegistersZeroToX : Prop :=
  ∀ (x : Nibble) (s : State), s.i.toNat + x.toNat ≤ 4095 →
    ∃ t, exec (.ldMemVx x) s = .next t ∧
      (∀ r : Nibble, r.toNat ≤ x.toNat → t.mem.get (s.i.toNat + r.toNat) = s.v r) ∧
      (∀ a, ¬ within s.i.toNat (x.toNat + 1) a → t.mem.get a = s.mem.get a) ∧ Frame [] [.mem] s t

/-- R191 (decision D19: `I` unchanged): with `I + x` in range the block load gives `V[k]` the byte at `I + k` for every
`k` in 0 .. x; the registers above `x` and everything else are unchanged. -/
def Obligations.BlockLoadReadsRegistersZeroToX : Prop :=
  ∀ (x : Nibble) (s : State), s.i.toNat + x.toNat ≤ 4095 →
    ∃ t, exec (.ldVxMem x) s = .next t ∧
      (∀ r : Nibble, r.toNat ≤ x.toNat → t.v r = s.mem.get (s.i.toNat + r.toNat)) ∧
      (∀ r : Nibble, x.toNat < r.toNat → t.v r = s.v r) ∧ ∀ p, Keeps s t p

/-- R190, R191 (decision D19): a block load restores what a block store of the same range saved, whatever the registers
hold meanwhile. -/
def Obligations.BlockLoadRestoresBlockStore : Prop :=
  ∀ (x : Nibble) (s u : State), s.i.toNat + x.toNat ≤ 4095 → u.i = s.i →
    ∃ t, exec (.ldMemVx x) s = .next t ∧
      ((∀ a, u.mem.get a = t.mem.get a) →
        ∃ w, exec (.ldVxMem x) u = .next w ∧ ∀ r : Nibble, r.toNat ≤ x.toNat → w.v r = s.v r)

/-- R65: a store is seen by the very next fetch: after a block store over `a` and `a + 1` the word fetched at `a` is made
of the two registers stored there. That no fence is needed is the spec's derivation. -/
def Obligations.StoreIsSeenByTheNextFetch : Prop :=
  ∀ (x k k' : Nibble) (s : State) (pc ir : Word), s.i.toNat + x.toNat ≤ 4095 → k'.toNat = k.toNat + 1 →
    k'.toNat ≤ x.toNat → pc.toNat = s.i.toNat + k.toNat →
    ∃ t u, exec (.ldMemVx x) s = .next t ∧ fetch (withFetch pc ir t) = some u ∧ u.ir = wordOfBytes (s.v k) (s.v k')

/-- R215, R61, R218, R220 (decisions D3, D4, D5): a memory instruction with an address above 4095 raises
OutOfBoundsAccess before any write: HALT and ERR alone change. -/
def Obligations.OutOfBoundsRaisesAndWritesNothing : Prop :=
  ∀ (x y n : Nibble) (s : State) (i : Instr),
    ((i = .drw x y n ∧ 0 < n.toNat ∧ 4095 < s.i.toNat + n.toNat - 1) ∨ (i = .ldB x ∧ 4095 < s.i.toNat + 2) ∨
      (i = .ldMemVx x ∧ 4095 < s.i.toNat + x.toNat) ∨ (i = .ldVxMem x ∧ 4095 < s.i.toNat + x.toNat)) →
    ∃ t, exec i s = .next t ∧ t.halt = true ∧ t.err = 4 ∧ Frame [] [.status] s t

/-! ## Over all instructions and all runs -/

/-- R31, R21, R24 to R29, R50, R51, R139: who writes what, over all instructions: a general register changes only where it
is a destination, or is VF and the instruction is one of the six flag writers; every other part changes only where the
instruction's rule writes it. -/
def Obligations.EveryInstructionWritesOnlyItsOwnParts : Prop :=
  ∀ (i : Instr) (s t : State), exec i s = .next t →
    (∀ r, hasDestination i r = false → ¬ (r = 15 ∧ writesFlag i = true) → t.v r = s.v r) ∧
    ∀ p, p ∉ writesParts i → Keeps s t p

/-- R11, R12: the keypad reaches only SKP, SKNP and LD Vx,K, and the random byte only RND: any other instruction does the
same whatever the inputs are. -/
def Obligations.InputsReachOnlyTheirInstructions : Prop :=
  ∀ (i : Instr) (s : State) (p : Pins), (readsKeys i = true → p.keys = s.env.pins.keys) →
    ((∃ x kk, i = .rnd x kk) → p.rand = s.env.pins.rand) →
    exec i (withPins p s) = mapAnswer (withPins p) (exec i s)

/-- R26 (decision D32; GET_SOUND_SEL absent, decision D14): nothing an instruction does depends on the sound timer; only
LD ST,Vx writes it. -/
def Obligations.SoundTimerInfluencesNothing : Prop :=
  ∀ (i : Instr) (s : State) (b : Byte), (∀ x, i ≠ .ldStVx x) →
    exec i (s.setSt b) = mapAnswer (fun t => t.setSt b) (exec i s)

/-- Every step keeps both memories in canonical form: addresses strictly rising below 4096 and 2048, and no byte listed
that reads as an unlisted one (the model's form of R50 and R51, log entries 1 and 2). -/
def Obligations.StepKeepsMemoriesCanonical : Prop :=
  ∀ s t : State, MemoriesWf s → step s = .next t → MemoriesWf t

/-- R52: every step keeps every display cell at 0x00 or 0x01. That the CORE keeps it is the spec's derivation. -/
def Obligations.StepKeepsDisplayCellsBinary : Prop :=
  ∀ s t : State, CellsBinary s → step s = .next t → CellsBinary t

/-- R27, R28, R131, R23: every step keeps SP at most 16, every meaningful stack entry at most 4096 and `pc` at most
0x10FE. That these bounds hold is the spec's derivation (R23, R27). -/
def Obligations.StepKeepsStackAndPcBounds : Prop :=
  ∀ s t : State, StackBounded s → StackEntriesLow s → PcLow s → step s = .next t →
    StackBounded t ∧ StackEntriesLow t ∧ PcLow t

/-- R29, R210 (decisions D3, D4): every step keeps ERR at 0 while HALT is 0 and at the code of a fatal kind while HALT
is 1. -/
def Obligations.StepKeepsStatusLegal : Prop :=
  ∀ s t : State, StatusLegal s → step s = .next t → StatusLegal t

/-- R8, R23, R27, R28, R52, R210: every run of the host's operations, whatever their order and inputs, keeps every invariant
of the machine; the bounds are the spec's derivations and the legal status its decisions D3 and D4. That a halted CORE is
in phase `running` is the model's own form of R67 (log entry 18). -/
def Obligations.DriverRunKeepsEveryInvariant : Prop :=
  ∀ (ops : List DriverOp) (s t : State), MachineInv s → driverRun s ops = .next t → MachineInv t

/-- R110, R96: on a booted CORE whose SP is in its range every step ends in a next state: no word faults at decode, no
instruction blocks, and no stop of the model's own is reached. -/
def Obligations.StepAlwaysAnswersANextState : Prop :=
  ∀ s : State, Booted s → StackBounded s → ∃ t, step s = .next t

/-- R219, R116, R222 (decision D3; the spec's derivation that ERR keeps the first error): in a run without Reset a halted
CORE stays halted with the same error, and neither a Cycle nor a tick changes anything but the timers. A halted CORE has run
a Cycle since its last Reset (`HaltedRunning`, one of the machine's invariants), so the host's load is refused (R67,
decision D29, log entry 18) and main memory keeps its bytes; without that premise the load could still write there. -/
def Obligations.OnlyResetLeavesTheHalt : Prop :=
  ∀ (ops : List DriverOp) (s t : State), s.halt = true → DriverOp.reset ∉ ops →
    (driverRun s ops = .next t → t.halt = true ∧ t.err = s.err ∧ Frame [] [.dt, .st, .mem] s t) ∧
    (s.env.phase = .running →
      (driverRun s ops = .next t → Frame [] [.dt, .st] s t) ∧
      ∀ base bytes, DriverOp.load base bytes ∈ ops → driverRun s ops = .refused .loadWindowClosed)

/-- R246 (decision D30, with the spec's derivation): from a normally ended state a Cycle changes nothing but IR, which it
writes with the word of the self-jump, and the state is still normally ended. -/
def Obligations.SelfJumpIsFinal : Prop :=
  ∀ s : State, Booted s → EndedNormally s →
    ∃ t, step s = .next t ∧ EndedNormally t ∧ t.ir = fetchWord s ∧ t.env.reports = s.env.reports ∧
      Frame [] [.ir, .env] s t
end

