-- ==== Sys2Proof/Laws/Decode.lean ====
section
/-! SUPPORT. The bits and the fields of a packed word, a word as its fields, and the bytes of a word (spec/30_encoding.md R81, R82). -/

namespace Sys2Proof

theorem packXYN_getLsbD (g x y n : Nibble) (i : Nat) : (packXYN g x y n).getLsbD i =
    if i < 4 then n.getLsbD i else if i < 8 then y.getLsbD (i - 4) else if i < 12 then x.getLsbD (i - 8)
    else g.getLsbD (i - 12) := by
  change BitVec.getLsbD (w := 4 + 4 + 4 + 4) (((g ++ x) ++ y) ++ n) i = _
  simp only [BitVec.getLsbD_append, Nat.sub_sub]
  grind

theorem packXKK_getLsbD (g x : Nibble) (kk : Byte) (i : Nat) : (packXKK g x kk).getLsbD i =
    if i < 8 then kk.getLsbD i else if i < 12 then x.getLsbD (i - 8) else g.getLsbD (i - 12) := by
  change BitVec.getLsbD (w := 4 + 4 + 8) ((g ++ x) ++ kk) i = _
  simp only [BitVec.getLsbD_append, Nat.sub_sub]
  grind

theorem packNNN_getLsbD (g : Nibble) (nnn : Addr) (i : Nat) : (packNNN g nnn).getLsbD i =
    if i < 12 then nnn.getLsbD i else g.getLsbD (i - 12) := by
  change BitVec.getLsbD (w := 4 + 12) (g ++ nnn) i = _
  simp only [BitVec.getLsbD_append]

theorem wordOfBytes_getLsbD (hi lo : Byte) (i : Nat) : (wordOfBytes hi lo).getLsbD i =
    if i < 8 then lo.getLsbD i else hi.getLsbD (i - 8) := by
  change BitVec.getLsbD (w := 8 + 8) (hi ++ lo) i = _
  simp only [BitVec.getLsbD_append]

/-- The number of a fetched word: the first byte in the high-order 8 bits (R56). -/
theorem wordOfBytes_toNat (hi lo : Byte) : (wordOfBytes hi lo).toNat = hi.toNat * 256 + lo.toNat := by
  have h : wordOfBytes hi lo = BitVec.ofNat 16 (hi.toNat * 256 + lo.toNat) := by
    apply BitVec.eq_of_toNat_eq
    change BitVec.toNat (w := 8 + 8) (hi ++ lo) = _
    rw [BitVec.toNat_append, Nat.shiftLeft_eq, Nat.mul_comm, ← Nat.two_pow_add_eq_or_of_lt lo.isLt,
      BitVec.toNat_ofNat, Nat.mod_eq_of_lt (by have := hi.isLt; have := lo.isLt; omega)]
  rw [h, BitVec.toNat_ofNat, Nat.mod_eq_of_lt (by have := hi.isLt; have := lo.isLt; omega)]

@[simp] theorem packXYN_group (g x y n : Nibble) : Word.group (packXYN g x y n) = g := by
  apply BitVec.eq_of_getLsbD_eq
  intro i hi
  simp only [Word.group, BitVec.getLsbD_extractLsb', packXYN_getLsbD]
  grind

@[simp] theorem packXYN_fieldX (g x y n : Nibble) : Word.fieldX (packXYN g x y n) = x := by
  apply BitVec.eq_of_getLsbD_eq
  intro i hi
  simp only [Word.fieldX, BitVec.getLsbD_extractLsb', packXYN_getLsbD]
  grind

@[simp] theorem packXYN_fieldY (g x y n : Nibble) : Word.fieldY (packXYN g x y n) = y := by
  apply BitVec.eq_of_getLsbD_eq
  intro i hi
  simp only [Word.fieldY, BitVec.getLsbD_extractLsb', packXYN_getLsbD]
  grind

@[simp] theorem packXYN_fieldN (g x y n : Nibble) : Word.fieldN (packXYN g x y n) = n := by
  apply BitVec.eq_of_getLsbD_eq
  intro i hi
  simp only [Word.fieldN, BitVec.getLsbD_extractLsb', packXYN_getLsbD]
  grind

@[simp] theorem packXKK_group (g x : Nibble) (kk : Byte) : Word.group (packXKK g x kk) = g := by
  apply BitVec.eq_of_getLsbD_eq
  intro i hi
  simp only [Word.group, BitVec.getLsbD_extractLsb', packXKK_getLsbD]
  grind

@[simp] theorem packXKK_fieldX (g x : Nibble) (kk : Byte) : Word.fieldX (packXKK g x kk) = x := by
  apply BitVec.eq_of_getLsbD_eq
  intro i hi
  simp only [Word.fieldX, BitVec.getLsbD_extractLsb', packXKK_getLsbD]
  grind

@[simp] theorem packXKK_fieldKK (g x : Nibble) (kk : Byte) : Word.fieldKK (packXKK g x kk) = kk := by
  apply BitVec.eq_of_getLsbD_eq
  intro i hi
  simp only [Word.fieldKK, BitVec.getLsbD_extractLsb', packXKK_getLsbD]
  grind

@[simp] theorem packNNN_group (g : Nibble) (nnn : Addr) : Word.group (packNNN g nnn) = g := by
  apply BitVec.eq_of_getLsbD_eq
  intro i hi
  simp only [Word.group, BitVec.getLsbD_extractLsb', packNNN_getLsbD]
  grind

@[simp] theorem packNNN_fieldNNN (g : Nibble) (nnn : Addr) : Word.fieldNNN (packNNN g nnn) = nnn := by
  apply BitVec.eq_of_getLsbD_eq
  intro i hi
  simp only [Word.fieldNNN, BitVec.getLsbD_extractLsb', packNNN_getLsbD]
  grind

@[simp] theorem wordOfBytes_hiByte (hi lo : Byte) : Word.hiByte (wordOfBytes hi lo) = hi := by
  apply BitVec.eq_of_getLsbD_eq
  intro i hi
  simp only [Word.hiByte, BitVec.getLsbD_extractLsb', wordOfBytes_getLsbD]
  grind

@[simp] theorem wordOfBytes_loByte (hi lo : Byte) : Word.loByte (wordOfBytes hi lo) = lo := by
  apply BitVec.eq_of_getLsbD_eq
  intro i hi
  simp only [Word.loByte, BitVec.getLsbD_extractLsb', wordOfBytes_getLsbD]
  grind

theorem packXYN_fields (w : Word) : packXYN w.group w.fieldX w.fieldY w.fieldN = w := by
  apply BitVec.eq_of_getLsbD_eq
  intro i hi
  simp only [packXYN_getLsbD, Word.group, Word.fieldX, Word.fieldY, Word.fieldN, BitVec.getLsbD_extractLsb']
  grind

theorem packXKK_fields (w : Word) : packXKK w.group w.fieldX w.fieldKK = w := by
  apply BitVec.eq_of_getLsbD_eq
  intro i hi
  simp only [packXKK_getLsbD, Word.group, Word.fieldX, Word.fieldKK, BitVec.getLsbD_extractLsb']
  grind

theorem packNNN_fields (w : Word) : packNNN w.group w.fieldNNN = w := by
  apply BitVec.eq_of_getLsbD_eq
  intro i hi
  simp only [packNNN_getLsbD, Word.group, Word.fieldNNN, BitVec.getLsbD_extractLsb']
  grind

@[simp] theorem wordOfBytes_bytes (w : Word) : wordOfBytes w.hiByte w.loByte = w := by
  apply BitVec.eq_of_getLsbD_eq
  intro i hi
  simp only [wordOfBytes_getLsbD, Word.hiByte, Word.loByte, BitVec.getLsbD_extractLsb']
  grind

/-- Decoding from bytes is decoding the word they make (R56, R80). -/
theorem decodeBytes_cons (w : Word) (rest : List Byte) :
    decodeBytes (w.hiByte :: w.loByte :: rest) =
      match decode w with
      | .ok i => .ok (i, rest)
      | .error e => .error e := by
  cases h : decode w <;> simp [decodeBytes, h]

/-- A word of group 0 is no other than its 12 low bits: the two instructions of group 0 have group 0 (R85). -/
theorem group_of_group0 : Word.group 0x00E0#16 = 0x0#4 ∧ Word.group 0x00EE#16 = 0x0#4 := by decide

theorem and_maskG (w : Word) : w &&& 0xF000#16 = packXYN w.group 0 0 0 := by
  apply BitVec.eq_of_getLsbD_eq
  intro i hi
  simp only [BitVec.getLsbD_and, packXYN_getLsbD, Word.group, BitVec.getLsbD_extractLsb']
  interval_cases i <;> simp

theorem and_maskGN (w : Word) : w &&& 0xF00F#16 = packXYN w.group 0 0 w.fieldN := by
  apply BitVec.eq_of_getLsbD_eq
  intro i hi
  simp only [BitVec.getLsbD_and, packXYN_getLsbD, Word.group, Word.fieldN, BitVec.getLsbD_extractLsb']
  interval_cases i <;> simp

theorem and_maskGK (w : Word) : w &&& 0xF0FF#16 = packXKK w.group 0 w.fieldKK := by
  apply BitVec.eq_of_getLsbD_eq
  intro i hi
  simp only [BitVec.getLsbD_and, packXKK_getLsbD, Word.group, Word.fieldKK, BitVec.getLsbD_extractLsb']
  interval_cases i <;> simp

theorem and_maskAll (w : Word) : w &&& 0xFFFF#16 = w := by
  apply BitVec.eq_of_getLsbD_eq
  intro i hi
  simp only [BitVec.getLsbD_and]
  interval_cases i <;> simp

end Sys2Proof
end

