-- ==== Sys2Proof/Laws/Memory.lean ====
section
/-! SUPPORT. The laws of memory: read after write, and that every memory operation keeps the canonical form. -/

namespace Sys2Proof.Machine

@[simp] theorem Memory.get_nil (a : Nat) : Memory.get [] a = 0x00 := rfl

theorem Memory.get_cons (k : Nat) (w : Byte) (m : Memory) (a : Nat) :
    Memory.get ((k, w) :: m) a = if k = a then w else m.get a := rfl

theorem Memory.erase_cons (k : Nat) (w : Byte) (m : Memory) (a : Nat) :
    Memory.erase ((k, w) :: m) a = if k = a then Memory.erase m a else (k, w) :: Memory.erase m a := by
  by_cases h : k = a <;> simp [Memory.erase, h]

theorem Memory.get_erase (m : Memory) (a b : Nat) :
    (m.erase a).get b = if b = a then 0x00 else m.get b := by
  induction m with
  | nil => simp [Memory.erase]
  | cons c m ih =>
    obtain ⟨k, w⟩ := c
    rw [Memory.erase_cons]
    by_cases hk : k = a
    · subst hk
      by_cases hb : b = k <;> simp_all [Memory.get_cons, eq_comm]
    · by_cases hkb : k = b
      · subst hkb; simp [Memory.get_cons, hk]
      · simp [Memory.get_cons, hk, hkb, ih]

theorem Memory.ne_of_mem_erase {m : Memory} {a : Nat} {c : Host.Cell} (h : c ∈ m.erase a) : c.1 ≠ a := by
  simpa using (List.mem_filter.mp h).2

theorem Memory.get_insert {m : Memory} {a : Nat} (h : ∀ c ∈ m, c.1 ≠ a) (v : Byte) (b : Nat) :
    (m.insert a v).get b = if b = a then v else m.get b := by
  induction m with
  | nil => by_cases hb : a = b <;> simp [Memory.insert, Memory.get_cons, hb, eq_comm]
  | cons c m ih =>
    obtain ⟨k, w⟩ := c
    have hk : k ≠ a := h _ (List.mem_cons_self ..)
    have ih := ih fun c hc => h c (List.mem_cons_of_mem _ hc)
    simp only [Memory.insert]
    split
    · by_cases hb : a = b <;> simp [Memory.get_cons, hb, eq_comm]
    · by_cases hkb : k = b
      · subst hkb; simp [Memory.get_cons, hk]
      · simp [Memory.get_cons, hkb, ih]

/-- Read after write, for every memory, in canonical form or not (R53, R54). -/
theorem Memory.get_set (m : Memory) (a b : Nat) (v : Byte) :
    (m.set a v).get b = if b = a then v else m.get b := by
  unfold Memory.set
  split
  · next h => subst h; exact Memory.get_erase m a b
  · rw [Memory.get_insert (fun _ h => Memory.ne_of_mem_erase h), Memory.get_erase]
    by_cases hb : b = a <;> simp [hb]

@[simp] theorem Memory.get_set_self (m : Memory) (a : Nat) (v : Byte) : (m.set a v).get a = v := by
  simp [Memory.get_set]

theorem Memory.get_set_ne (m : Memory) {a b : Nat} (v : Byte) (h : b ≠ a) : (m.set a v).get b = m.get b := by
  simp [Memory.get_set, h]

/-! ## Several bytes -/

theorem storeBytes_get (bs : List Byte) (m : Memory) (base a : Nat) :
    (storeBytes m base bs).get a =
      if base ≤ a ∧ a < base + bs.length then bs.getD (a - base) 0x00 else m.get a := by
  induction bs generalizing m base with
  | nil => simp [storeBytes]
  | cons b bs ih =>
    rw [storeBytes, ih, Memory.get_set]
    by_cases h : a = base
    · subst h; simp
    · by_cases h1 : base + 1 ≤ a ∧ a < base + 1 + bs.length
      · rw [if_pos h1, if_pos (by simp; omega)]
        rw [show a - base = (a - (base + 1)) + 1 by omega]
        simp
      · rw [if_neg h1, if_neg h, if_neg (by simp; omega)]

theorem storeBytes_get_outside {bs : List Byte} {m : Memory} {base a : Nat}
    (h : ¬ (base ≤ a ∧ a < base + bs.length)) : (storeBytes m base bs).get a = m.get a := by
  rw [storeBytes_get, if_neg h]

@[simp] theorem loadBytes_length (m : Memory) (base k : Nat) : (loadBytes m base k).length = k := by
  induction k generalizing base with
  | zero => rfl
  | succ k ih => simp [loadBytes, ih]

theorem loadBytes_getElem (m : Memory) (base k j : Nat) (h : j < (loadBytes m base k).length) :
    (loadBytes m base k)[j] = m.get (base + j) := by
  induction k generalizing base j with
  | zero => simp [loadBytes] at h
  | succ k ih =>
    cases j with
    | zero => simp [loadBytes]
    | succ j => simp only [loadBytes, List.getElem_cons_succ, ih]; congr 1; omega

/-! ## The canonical form -/

theorem Memory.wfFrom_le {cap lo lo' : Nat} {m : Memory} (h : Memory.wfFrom cap lo m = true) (hl : lo' ≤ lo) :
    Memory.wfFrom cap lo' m = true := by
  cases m with
  | nil => rfl
  | cons c m =>
    simp only [Memory.wfFrom, Bool.and_eq_true, decide_eq_true_eq] at h ⊢
    exact ⟨⟨⟨by omega, h.1.1.2⟩, h.1.2⟩, h.2⟩

theorem Memory.wfFrom_erase {cap : Nat} (m : Memory) (lo a : Nat) (h : Memory.wfFrom cap lo m = true) :
    Memory.wfFrom cap lo (m.erase a) = true := by
  induction m generalizing lo with
  | nil => rfl
  | cons c m ih =>
    obtain ⟨k, w⟩ := c
    rw [Memory.erase_cons]
    simp only [Memory.wfFrom, Bool.and_eq_true, decide_eq_true_eq] at h
    split
    · exact Memory.wfFrom_le (ih _ h.2) (by omega)
    · simp only [Memory.wfFrom, Bool.and_eq_true, decide_eq_true_eq]
      exact ⟨h.1, ih _ h.2⟩

theorem Memory.wfFrom_insert {cap : Nat} (m : Memory) (lo a : Nat) (v : Byte) (h : Memory.wfFrom cap lo m = true)
    (hlo : lo ≤ a) (ha : a < cap) (hv : v ≠ 0x00) (hne : ∀ c ∈ m, c.1 ≠ a) :
    Memory.wfFrom cap lo (m.insert a v) = true := by
  induction m generalizing lo with
  | nil => simpa [Memory.insert, Memory.wfFrom, hlo, ha] using hv
  | cons c m ih =>
    obtain ⟨k, w⟩ := c
    have hk : k ≠ a := hne _ (List.mem_cons_self ..)
    simp only [Memory.wfFrom, Bool.and_eq_true, decide_eq_true_eq] at h
    simp only [Memory.insert]
    split
    · simp only [Memory.wfFrom, Bool.and_eq_true, decide_eq_true_eq]
      exact ⟨⟨⟨hlo, ha⟩, hv⟩, ⟨⟨by omega, h.1.1.2⟩, h.1.2⟩, h.2⟩
    · simp only [Memory.wfFrom, Bool.and_eq_true, decide_eq_true_eq]
      exact ⟨h.1, ih _ h.2 (by omega) fun c hc => hne c (List.mem_cons_of_mem _ hc)⟩

theorem Memory.wf_set {cap : Nat} {m : Memory} {a : Nat} (v : Byte) (h : Memory.wf cap m = true) (ha : a < cap) :
    Memory.wf cap (m.set a v) = true := by
  unfold Memory.set
  split
  · exact Memory.wfFrom_erase m 0 a h
  · next hv =>
    exact Memory.wfFrom_insert _ 0 a v (Memory.wfFrom_erase m 0 a h) (Nat.zero_le _) ha hv
      fun _ hc => Memory.ne_of_mem_erase hc

theorem Memory.wf_storeBytes {cap : Nat} (bs : List Byte) {m : Memory} {base : Nat} (h : Memory.wf cap m = true)
    (hb : base + bs.length ≤ cap) : Memory.wf cap (storeBytes m base bs) = true := by
  induction bs generalizing m base with
  | nil => exact h
  | cons b bs ih =>
    simp only [List.length_cons] at hb
    exact ih (Memory.wf_set b h (by omega)) (by omega)

theorem Memory.get_eq_zero_of_lt {cap lo : Nat} {m : Memory} (h : Memory.wfFrom cap lo m = true) {a : Nat}
    (ha : a < lo) : m.get a = 0x00 := by
  induction m generalizing lo with
  | nil => rfl
  | cons c m ih =>
    obtain ⟨k, w⟩ := c
    simp only [Memory.wfFrom, Bool.and_eq_true, decide_eq_true_eq] at h
    rw [Memory.get_cons, if_neg (by omega)]
    exact ih h.2 (by omega)

theorem Memory.ext_wfFrom {cap lo : Nat} {m n : Memory} (hm : Memory.wfFrom cap lo m = true)
    (hn : Memory.wfFrom cap lo n = true) (h : ∀ a, m.get a = n.get a) : m = n := by
  induction m generalizing lo n with
  | nil =>
    cases n with
    | nil => rfl
    | cons c n =>
      obtain ⟨k, w⟩ := c
      simp only [Memory.wfFrom, Bool.and_eq_true, decide_eq_true_eq] at hn
      exact absurd (h k) (by simpa [Memory.get_cons] using Ne.symm hn.1.2)
  | cons c m ih =>
    obtain ⟨k, w⟩ := c
    cases n with
    | nil =>
      simp only [Memory.wfFrom, Bool.and_eq_true, decide_eq_true_eq] at hm
      exact absurd (h k) (by simpa [Memory.get_cons] using hm.1.2)
    | cons d n =>
      obtain ⟨j, u⟩ := d
      simp only [Memory.wfFrom, Bool.and_eq_true, decide_eq_true_eq] at hm hn
      have key : k = j := by
        rcases Nat.lt_trichotomy k j with hlt | heq | hgt
        · have := h k
          rw [Memory.get_cons, if_pos rfl, Memory.get_cons, if_neg (by omega),
            Memory.get_eq_zero_of_lt hn.2 (by omega)] at this
          exact absurd this hm.1.2
        · exact heq
        · have := h j
          rw [Memory.get_cons, if_neg (by omega), Memory.get_eq_zero_of_lt hm.2 (by omega),
            Memory.get_cons, if_pos rfl] at this
          exact absurd this.symm hn.1.2
      subst key
      have hw : w = u := by simpa [Memory.get_cons] using h k
      subst hw
      congr 1
      refine ih hm.2 hn.2 fun a => ?_
      by_cases ha : k = a
      · subst ha
        rw [Memory.get_eq_zero_of_lt hm.2 (by omega), Memory.get_eq_zero_of_lt hn.2 (by omega)]
      · simpa [Memory.get_cons, ha] using h a

/-- Memories in canonical form that read alike are the same data. -/
theorem Memory.ext_wf {cap : Nat} {m n : Memory} (hm : Memory.wf cap m = true) (hn : Memory.wf cap n = true)
    (h : ∀ a, m.get a = n.get a) : m = n := Memory.ext_wfFrom hm hn h

theorem reset_mem_wf : Memory.wf memSize State.reset.mem = true := rfl

theorem reset_disp_wf : Memory.wf hwConfig.dispSize State.reset.disp = true := rfl

end Sys2Proof.Machine
end

