-- ==== Sys2Proof/Laws/Draw.lean ====
section
/-! SUPPORT. What drawing does to the display, and which cells a sprite toggles (spec/43_display_key_timer_memory.md R180). -/

namespace Sys2Proof.Machine

/-- A toggled cell of 0x00 or 0x01 (R180). -/
theorem togglePixel_binary (n : Nat) {d : Memory × Bool} {adr : Nat} (h : d.1.get adr = 0x00 ∨ d.1.get adr = 0x01) :
    togglePixel n d adr = (d.1.set adr (d.1.get adr ^^^ 0x01), d.2 || d.1.get adr == 0x01) := by
  unfold togglePixel
  exact if_pos h

theorem togglePixel_get_ne (n : Nat) (d : Memory × Bool) {adr b : Nat} (h : b ≠ adr) :
    (togglePixel n d adr).1.get b = d.1.get b := by
  unfold togglePixel
  dsimp only
  split <;> simp [Memory.get_set, h]

theorem togglePixel_wf (n : Nat) {cap : Nat} {d : Memory × Bool} {adr : Nat} (h : Memory.wf cap d.1 = true)
    (ha : adr < cap) : Memory.wf cap (togglePixel n d adr).1 = true := by
  unfold togglePixel
  dsimp only
  split <;> exact Memory.wf_set _ h ha

theorem drawFold_wf (n : Nat) {cap : Nat} (adrs : List Nat) {d : Memory × Bool} (h : Memory.wf cap d.1 = true)
    (ha : ∀ a ∈ adrs, a < cap) : Memory.wf cap (adrs.foldl (togglePixel n) d).1 = true := by
  induction adrs generalizing d with
  | nil => exact h
  | cons a adrs ih =>
    exact ih (togglePixel_wf n h (ha a (List.mem_cons_self ..))) fun b hb => ha b (List.mem_cons_of_mem _ hb)

theorem drawFold_get_of_not_mem (n : Nat) (adrs : List Nat) (d : Memory × Bool) {b : Nat} (h : b ∉ adrs) :
    (adrs.foldl (togglePixel n) d).1.get b = d.1.get b := by
  induction adrs generalizing d with
  | nil => rfl
  | cons a adrs ih =>
    rw [List.foldl_cons, ih _ fun hb => h (List.mem_cons_of_mem _ hb)]
    exact togglePixel_get_ne n d fun hb => h (hb ▸ List.mem_cons_self ..)

/-- A cell listed once, holding 0x00 or 0x01, is toggled. -/
theorem drawFold_get_of_mem (n : Nat) {adrs : List Nat} (hnd : adrs.Nodup) (d : Memory × Bool) {b : Nat} (hb : b ∈ adrs)
    (hv : d.1.get b = 0x00 ∨ d.1.get b = 0x01) :
    (adrs.foldl (togglePixel n) d).1.get b = d.1.get b ^^^ 0x01 := by
  induction adrs generalizing d with
  | nil => simp at hb
  | cons a adrs ih =>
    rw [List.foldl_cons]
    obtain ⟨ha, hnd⟩ := List.nodup_cons.mp hnd
    by_cases hab : b = a
    · subst hab
      rw [drawFold_get_of_not_mem n adrs _ ha]
      rw [togglePixel_binary n hv, Memory.get_set_self]
    · have hne := togglePixel_get_ne n d hab
      rw [ih hnd _ ((List.mem_cons.mp hb).resolve_left hab) (by rw [hne]; exact hv), hne]

/-- The collision flag: it was set before, or some listed cell held 0x01 (every cell holding 0x00 or 0x01). -/
theorem drawFold_hit (n : Nat) {adrs : List Nat} (hnd : adrs.Nodup) (d : Memory × Bool)
    (hv : ∀ b ∈ adrs, d.1.get b = 0x00 ∨ d.1.get b = 0x01) :
    (adrs.foldl (togglePixel n) d).2 = true ↔ d.2 = true ∨ ∃ b ∈ adrs, d.1.get b = 0x01 := by
  induction adrs generalizing d with
  | nil => simp
  | cons a adrs ih =>
    rw [List.foldl_cons]
    obtain ⟨ha, hnd⟩ := List.nodup_cons.mp hnd
    have hne : ∀ b ∈ adrs, (togglePixel n d a).1.get b = d.1.get b :=
      fun b hb => togglePixel_get_ne n d fun h => ha (h ▸ hb)
    rw [ih hnd _ fun b hb => by rw [hne b hb]; exact hv b (List.mem_cons_of_mem _ hb)]
    have h2 : (togglePixel n d a).2 = true ↔ d.2 = true ∨ d.1.get a = 0x01 := by
      rw [togglePixel_binary n (hv a (List.mem_cons_self ..))]; simp
    rw [h2]
    constructor
    · rintro ((h | h) | ⟨b, hb, h⟩)
      · exact .inl h
      · exact .inr ⟨a, List.mem_cons_self .., h⟩
      · exact .inr ⟨b, List.mem_cons_of_mem _ hb, (hne b hb) ▸ h⟩
    · rintro (h | ⟨b, hb, h⟩)
      · exact .inl (.inl h)
      · rcases List.mem_cons.mp hb with rfl | hb
        · exact .inl (.inr h)
        · exact .inr ⟨b, hb, (hne b hb).symm ▸ h⟩

/-! ## The cells of a sprite -/

theorem mem_rowPixels {c : Config} {vx py : Nat} {b : Byte} {a : Nat} :
    a ∈ rowPixels c vx py b ↔ ∃ k, k < 8 ∧ b.getLsbD (7 - k) = true ∧ a = pixelAddress c (vx + k) py := by
  simp only [rowPixels, List.mem_map, List.mem_filter, List.mem_range]
  grind

theorem mem_spritePixels {c : Config} {vx : Nat} (bs : List Byte) {py a : Nat} :
    a ∈ spritePixels c vx py bs ↔
      ∃ r k, ∃ h : r < bs.length, k < 8 ∧ bs[r].getLsbD (7 - k) = true ∧ a = pixelAddress c (vx + k) (py + r) := by
  induction bs generalizing py with
  | nil => simp [spritePixels]
  | cons b bs ih =>
    simp only [spritePixels, List.mem_append, mem_rowPixels, ih]
    constructor
    · rintro (⟨k, hk, hb, rfl⟩ | ⟨r, k, hr, hk, hb, rfl⟩)
      · exact ⟨0, k, by simp, hk, hb, rfl⟩
      · refine ⟨r + 1, k, by simpa using hr, hk, by simpa using hb, ?_⟩
        rw [show py + 1 + r = py + (r + 1) by omega]
    · rintro ⟨r, k, hr, hk, hb, rfl⟩
      cases r with
      | zero => exact .inl ⟨k, hk, hb, rfl⟩
      | succ r =>
        refine .inr ⟨r, k, by simpa using hr, hk, by simpa using hb, ?_⟩
        rw [show py + 1 + r = py + (r + 1) by omega]

theorem pixelAddress_lt {c : Config} (hw : 0 < c.dispW) (hh : 0 < c.dispH) (px py : Nat) :
    pixelAddress c px py < c.dispSize := by
  have h1 := Nat.mod_lt px hw
  have h2 := Nat.mod_lt py hh
  unfold pixelAddress Config.dispSize
  calc py % c.dispH * c.dispW + px % c.dispW < py % c.dispH * c.dispW + c.dispW := by omega
    _ = (py % c.dispH + 1) * c.dispW := by rw [Nat.succ_mul]
    _ ≤ c.dispH * c.dispW := Nat.mul_le_mul_right _ h2
    _ = c.dispW * c.dispH := Nat.mul_comm ..

theorem pixelAddress_inj {c : Config} (hw : 0 < c.dispW) {px py px' py' : Nat}
    (h : pixelAddress c px py = pixelAddress c px' py') : px % c.dispW = px' % c.dispW ∧ py % c.dispH = py' % c.dispH := by
  unfold pixelAddress at h
  have h1 := Nat.mod_lt px hw
  have h2 := Nat.mod_lt px' hw
  have hm := congrArg (· % c.dispW) h
  have hd := congrArg (· / c.dispW) h
  simp only [Nat.mul_add_mod_self_right, Nat.mod_mod] at hm
  refine ⟨hm, ?_⟩
  rw [hm] at h
  exact Nat.eq_of_mul_eq_mul_right hw (Nat.add_right_cancel h)

theorem rowPixels_nodup {c : Config} (hw : 8 ≤ c.dispW) (vx py : Nat) (b : Byte) : (rowPixels c vx py b).Nodup := by
  unfold rowPixels
  refine List.Nodup.map_on ?_ (List.nodup_range.filter _)
  intro k hk j hj h
  have hk := List.mem_range.mp (List.mem_filter.mp hk).1
  have hj := List.mem_range.mp (List.mem_filter.mp hj).1
  have hm := (pixelAddress_inj (by omega) h).1
  have : (vx + k) ≡ (vx + j) [MOD c.dispW] := hm
  have := Nat.ModEq.add_left_cancel' vx this
  exact Nat.ModEq.eq_of_lt_of_lt this (by omega) (by omega)

/-- No cell is visited twice within one DRW (R180), by the constraints of R5. -/
theorem spritePixels_nodup {c : Config} (hw : 8 ≤ c.dispW) {vx : Nat} (bs : List Byte) {py : Nat}
    (hh : bs.length ≤ c.dispH) : (spritePixels c vx py bs).Nodup := by
  induction bs generalizing py with
  | nil => simp [spritePixels]
  | cons b bs ih =>
    simp only [List.length_cons] at hh
    simp only [spritePixels]
    refine List.nodup_append.mpr ⟨rowPixels_nodup hw vx py b, ih (by omega), ?_⟩
    intro a ha a' ha' heq
    subst heq
    obtain ⟨k, _, _, hk⟩ := mem_rowPixels.mp ha
    obtain ⟨r, j, hr, _, _, hj⟩ := (mem_spritePixels bs).mp ha'
    have hm := (pixelAddress_inj (by omega) (hk.symm.trans hj)).2
    have : (py + 0) ≡ (py + (1 + r)) [MOD c.dispH] := by
      simpa [Nat.ModEq, Nat.add_assoc] using hm
    have := Nat.ModEq.eq_of_lt_of_lt (Nat.ModEq.add_left_cancel' py this) (by omega) (by omega)
    omega

theorem spritePixels_lt {c : Config} (hw : 0 < c.dispW) (hh : 0 < c.dispH) {vx py : Nat} {bs : List Byte} {a : Nat}
    (h : a ∈ spritePixels c vx py bs) : a < c.dispSize := by
  obtain ⟨r, k, _, _, _, rfl⟩ := (mem_spritePixels bs).mp h
  exact pixelAddress_lt hw hh _ _

end Sys2Proof.Machine
end

