-- ==== Sys2Proof/Laws/State.lean ====
section
/-! SUPPORT. What each update of the state does to each field, and the general registers under every update. -/

namespace Sys2Proof.Machine

/-- Read after write of a general register (R20). -/
theorem State.v_setV (s : State) (x y : Nibble) (b : Byte) : (s.setV x b).v y = if y = x then b else s.v y := by
  simp [State.v, State.setV, Vector.getElem_set, BitVec.toNat_eq, eq_comm]

@[simp] theorem State.v_setV_self (s : State) (x : Nibble) (b : Byte) : (s.setV x b).v x = b := by
  simp [State.v_setV]

theorem State.v_setV_ne (s : State) {x y : Nibble} (b : Byte) (h : y ≠ x) : (s.setV x b).v y = s.v y := by
  simp [State.v_setV, h]

/-- `VF` is register 15 (R21). -/
theorem vf_eq : vf = 15 := rfl

/-- Register files that read alike are the same. -/
theorem State.regs_ext {s t : State} (h : ∀ r, s.v r = t.v r) : s.regs = t.regs := by
  apply Vector.ext
  intro k hk
  have := h (BitVec.ofNat 4 k)
  simpa only [State.v, BitVec.toNat_ofNat, Nat.mod_eq_of_lt (show k < 2 ^ 4 by omega)] using this

@[simp] theorem State.setV_regs (s : State) (x : Nibble) (b : Byte) : (s.setV x b).regs = s.regs.set x.toNat b x.isLt := rfl
@[simp] theorem State.setV_i (s : State) (x : Nibble) (b : Byte) : (s.setV x b).i = s.i := rfl
@[simp] theorem State.setV_dt (s : State) (x : Nibble) (b : Byte) : (s.setV x b).dt = s.dt := rfl
@[simp] theorem State.setV_st (s : State) (x : Nibble) (b : Byte) : (s.setV x b).st = s.st := rfl
@[simp] theorem State.setV_pc (s : State) (x : Nibble) (b : Byte) : (s.setV x b).pc = s.pc := rfl
@[simp] theorem State.setV_sp (s : State) (x : Nibble) (b : Byte) : (s.setV x b).sp = s.sp := rfl
@[simp] theorem State.setV_stk (s : State) (x : Nibble) (b : Byte) : (s.setV x b).stk = s.stk := rfl
@[simp] theorem State.setV_ir (s : State) (x : Nibble) (b : Byte) : (s.setV x b).ir = s.ir := rfl
@[simp] theorem State.setV_halt (s : State) (x : Nibble) (b : Byte) : (s.setV x b).halt = s.halt := rfl
@[simp] theorem State.setV_err (s : State) (x : Nibble) (b : Byte) : (s.setV x b).err = s.err := rfl
@[simp] theorem State.setV_mem (s : State) (x : Nibble) (b : Byte) : (s.setV x b).mem = s.mem := rfl
@[simp] theorem State.setV_disp (s : State) (x : Nibble) (b : Byte) : (s.setV x b).disp = s.disp := rfl
@[simp] theorem State.setV_env (s : State) (x : Nibble) (b : Byte) : (s.setV x b).env = s.env := rfl

@[simp] theorem State.setI_regs (s : State) (w : Word) : (s.setI w).regs = s.regs := rfl
@[simp] theorem State.setI_i (s : State) (w : Word) : (s.setI w).i = w := rfl
@[simp] theorem State.setI_dt (s : State) (w : Word) : (s.setI w).dt = s.dt := rfl
@[simp] theorem State.setI_st (s : State) (w : Word) : (s.setI w).st = s.st := rfl
@[simp] theorem State.setI_pc (s : State) (w : Word) : (s.setI w).pc = s.pc := rfl
@[simp] theorem State.setI_sp (s : State) (w : Word) : (s.setI w).sp = s.sp := rfl
@[simp] theorem State.setI_stk (s : State) (w : Word) : (s.setI w).stk = s.stk := rfl
@[simp] theorem State.setI_ir (s : State) (w : Word) : (s.setI w).ir = s.ir := rfl
@[simp] theorem State.setI_halt (s : State) (w : Word) : (s.setI w).halt = s.halt := rfl
@[simp] theorem State.setI_err (s : State) (w : Word) : (s.setI w).err = s.err := rfl
@[simp] theorem State.setI_mem (s : State) (w : Word) : (s.setI w).mem = s.mem := rfl
@[simp] theorem State.setI_disp (s : State) (w : Word) : (s.setI w).disp = s.disp := rfl
@[simp] theorem State.setI_env (s : State) (w : Word) : (s.setI w).env = s.env := rfl
@[simp] theorem State.setI_v (s : State) (w : Word) (r : Nibble) : (s.setI w).v r = s.v r := rfl

@[simp] theorem State.setDt_regs (s : State) (b : Byte) : (s.setDt b).regs = s.regs := rfl
@[simp] theorem State.setDt_i (s : State) (b : Byte) : (s.setDt b).i = s.i := rfl
@[simp] theorem State.setDt_dt (s : State) (b : Byte) : (s.setDt b).dt = b := rfl
@[simp] theorem State.setDt_st (s : State) (b : Byte) : (s.setDt b).st = s.st := rfl
@[simp] theorem State.setDt_pc (s : State) (b : Byte) : (s.setDt b).pc = s.pc := rfl
@[simp] theorem State.setDt_sp (s : State) (b : Byte) : (s.setDt b).sp = s.sp := rfl
@[simp] theorem State.setDt_stk (s : State) (b : Byte) : (s.setDt b).stk = s.stk := rfl
@[simp] theorem State.setDt_ir (s : State) (b : Byte) : (s.setDt b).ir = s.ir := rfl
@[simp] theorem State.setDt_halt (s : State) (b : Byte) : (s.setDt b).halt = s.halt := rfl
@[simp] theorem State.setDt_err (s : State) (b : Byte) : (s.setDt b).err = s.err := rfl
@[simp] theorem State.setDt_mem (s : State) (b : Byte) : (s.setDt b).mem = s.mem := rfl
@[simp] theorem State.setDt_disp (s : State) (b : Byte) : (s.setDt b).disp = s.disp := rfl
@[simp] theorem State.setDt_env (s : State) (b : Byte) : (s.setDt b).env = s.env := rfl
@[simp] theorem State.setDt_v (s : State) (b : Byte) (r : Nibble) : (s.setDt b).v r = s.v r := rfl

@[simp] theorem State.setSt_regs (s : State) (b : Byte) : (s.setSt b).regs = s.regs := rfl
@[simp] theorem State.setSt_i (s : State) (b : Byte) : (s.setSt b).i = s.i := rfl
@[simp] theorem State.setSt_dt (s : State) (b : Byte) : (s.setSt b).dt = s.dt := rfl
@[simp] theorem State.setSt_st (s : State) (b : Byte) : (s.setSt b).st = b := rfl
@[simp] theorem State.setSt_pc (s : State) (b : Byte) : (s.setSt b).pc = s.pc := rfl
@[simp] theorem State.setSt_sp (s : State) (b : Byte) : (s.setSt b).sp = s.sp := rfl
@[simp] theorem State.setSt_stk (s : State) (b : Byte) : (s.setSt b).stk = s.stk := rfl
@[simp] theorem State.setSt_ir (s : State) (b : Byte) : (s.setSt b).ir = s.ir := rfl
@[simp] theorem State.setSt_halt (s : State) (b : Byte) : (s.setSt b).halt = s.halt := rfl
@[simp] theorem State.setSt_err (s : State) (b : Byte) : (s.setSt b).err = s.err := rfl
@[simp] theorem State.setSt_mem (s : State) (b : Byte) : (s.setSt b).mem = s.mem := rfl
@[simp] theorem State.setSt_disp (s : State) (b : Byte) : (s.setSt b).disp = s.disp := rfl
@[simp] theorem State.setSt_env (s : State) (b : Byte) : (s.setSt b).env = s.env := rfl
@[simp] theorem State.setSt_v (s : State) (b : Byte) (r : Nibble) : (s.setSt b).v r = s.v r := rfl

@[simp] theorem State.setPc_regs (s : State) (w : Word) : (s.setPc w).regs = s.regs := rfl
@[simp] theorem State.setPc_i (s : State) (w : Word) : (s.setPc w).i = s.i := rfl
@[simp] theorem State.setPc_dt (s : State) (w : Word) : (s.setPc w).dt = s.dt := rfl
@[simp] theorem State.setPc_st (s : State) (w : Word) : (s.setPc w).st = s.st := rfl
@[simp] theorem State.setPc_pc (s : State) (w : Word) : (s.setPc w).pc = w := rfl
@[simp] theorem State.setPc_sp (s : State) (w : Word) : (s.setPc w).sp = s.sp := rfl
@[simp] theorem State.setPc_stk (s : State) (w : Word) : (s.setPc w).stk = s.stk := rfl
@[simp] theorem State.setPc_ir (s : State) (w : Word) : (s.setPc w).ir = s.ir := rfl
@[simp] theorem State.setPc_halt (s : State) (w : Word) : (s.setPc w).halt = s.halt := rfl
@[simp] theorem State.setPc_err (s : State) (w : Word) : (s.setPc w).err = s.err := rfl
@[simp] theorem State.setPc_mem (s : State) (w : Word) : (s.setPc w).mem = s.mem := rfl
@[simp] theorem State.setPc_disp (s : State) (w : Word) : (s.setPc w).disp = s.disp := rfl
@[simp] theorem State.setPc_env (s : State) (w : Word) : (s.setPc w).env = s.env := rfl
@[simp] theorem State.setPc_v (s : State) (w : Word) (r : Nibble) : (s.setPc w).v r = s.v r := rfl

@[simp] theorem State.setMem_regs (s : State) (m : Memory) : (s.setMem m).regs = s.regs := rfl
@[simp] theorem State.setMem_i (s : State) (m : Memory) : (s.setMem m).i = s.i := rfl
@[simp] theorem State.setMem_dt (s : State) (m : Memory) : (s.setMem m).dt = s.dt := rfl
@[simp] theorem State.setMem_st (s : State) (m : Memory) : (s.setMem m).st = s.st := rfl
@[simp] theorem State.setMem_pc (s : State) (m : Memory) : (s.setMem m).pc = s.pc := rfl
@[simp] theorem State.setMem_sp (s : State) (m : Memory) : (s.setMem m).sp = s.sp := rfl
@[simp] theorem State.setMem_stk (s : State) (m : Memory) : (s.setMem m).stk = s.stk := rfl
@[simp] theorem State.setMem_ir (s : State) (m : Memory) : (s.setMem m).ir = s.ir := rfl
@[simp] theorem State.setMem_halt (s : State) (m : Memory) : (s.setMem m).halt = s.halt := rfl
@[simp] theorem State.setMem_err (s : State) (m : Memory) : (s.setMem m).err = s.err := rfl
@[simp] theorem State.setMem_mem (s : State) (m : Memory) : (s.setMem m).mem = m := rfl
@[simp] theorem State.setMem_disp (s : State) (m : Memory) : (s.setMem m).disp = s.disp := rfl
@[simp] theorem State.setMem_env (s : State) (m : Memory) : (s.setMem m).env = s.env := rfl
@[simp] theorem State.setMem_v (s : State) (m : Memory) (r : Nibble) : (s.setMem m).v r = s.v r := rfl

@[simp] theorem State.setDisp_regs (s : State) (m : Memory) : (s.setDisp m).regs = s.regs := rfl
@[simp] theorem State.setDisp_i (s : State) (m : Memory) : (s.setDisp m).i = s.i := rfl
@[simp] theorem State.setDisp_dt (s : State) (m : Memory) : (s.setDisp m).dt = s.dt := rfl
@[simp] theorem State.setDisp_st (s : State) (m : Memory) : (s.setDisp m).st = s.st := rfl
@[simp] theorem State.setDisp_pc (s : State) (m : Memory) : (s.setDisp m).pc = s.pc := rfl
@[simp] theorem State.setDisp_sp (s : State) (m : Memory) : (s.setDisp m).sp = s.sp := rfl
@[simp] theorem State.setDisp_stk (s : State) (m : Memory) : (s.setDisp m).stk = s.stk := rfl
@[simp] theorem State.setDisp_ir (s : State) (m : Memory) : (s.setDisp m).ir = s.ir := rfl
@[simp] theorem State.setDisp_halt (s : State) (m : Memory) : (s.setDisp m).halt = s.halt := rfl
@[simp] theorem State.setDisp_err (s : State) (m : Memory) : (s.setDisp m).err = s.err := rfl
@[simp] theorem State.setDisp_mem (s : State) (m : Memory) : (s.setDisp m).mem = s.mem := rfl
@[simp] theorem State.setDisp_disp (s : State) (m : Memory) : (s.setDisp m).disp = m := rfl
@[simp] theorem State.setDisp_env (s : State) (m : Memory) : (s.setDisp m).env = s.env := rfl
@[simp] theorem State.setDisp_v (s : State) (m : Memory) (r : Nibble) : (s.setDisp m).v r = s.v r := rfl

@[simp] theorem State.setEnv_regs (s : State) (e : Env) : (s.setEnv e).regs = s.regs := rfl
@[simp] theorem State.setEnv_i (s : State) (e : Env) : (s.setEnv e).i = s.i := rfl
@[simp] theorem State.setEnv_dt (s : State) (e : Env) : (s.setEnv e).dt = s.dt := rfl
@[simp] theorem State.setEnv_st (s : State) (e : Env) : (s.setEnv e).st = s.st := rfl
@[simp] theorem State.setEnv_pc (s : State) (e : Env) : (s.setEnv e).pc = s.pc := rfl
@[simp] theorem State.setEnv_sp (s : State) (e : Env) : (s.setEnv e).sp = s.sp := rfl
@[simp] theorem State.setEnv_stk (s : State) (e : Env) : (s.setEnv e).stk = s.stk := rfl
@[simp] theorem State.setEnv_ir (s : State) (e : Env) : (s.setEnv e).ir = s.ir := rfl
@[simp] theorem State.setEnv_halt (s : State) (e : Env) : (s.setEnv e).halt = s.halt := rfl
@[simp] theorem State.setEnv_err (s : State) (e : Env) : (s.setEnv e).err = s.err := rfl
@[simp] theorem State.setEnv_mem (s : State) (e : Env) : (s.setEnv e).mem = s.mem := rfl
@[simp] theorem State.setEnv_disp (s : State) (e : Env) : (s.setEnv e).disp = s.disp := rfl
@[simp] theorem State.setEnv_env (s : State) (e : Env) : (s.setEnv e).env = e := rfl
@[simp] theorem State.setEnv_v (s : State) (e : Env) (r : Nibble) : (s.setEnv e).v r = s.v r := rfl

@[simp] theorem raise_regs (e : ErrKind) (s : State) : (raise e s).regs = s.regs := rfl
@[simp] theorem raise_i (e : ErrKind) (s : State) : (raise e s).i = s.i := rfl
@[simp] theorem raise_dt (e : ErrKind) (s : State) : (raise e s).dt = s.dt := rfl
@[simp] theorem raise_st (e : ErrKind) (s : State) : (raise e s).st = s.st := rfl
@[simp] theorem raise_pc (e : ErrKind) (s : State) : (raise e s).pc = s.pc := rfl
@[simp] theorem raise_sp (e : ErrKind) (s : State) : (raise e s).sp = s.sp := rfl
@[simp] theorem raise_stk (e : ErrKind) (s : State) : (raise e s).stk = s.stk := rfl
@[simp] theorem raise_ir (e : ErrKind) (s : State) : (raise e s).ir = s.ir := rfl
@[simp] theorem raise_halt (e : ErrKind) (s : State) : (raise e s).halt = true := rfl
@[simp] theorem raise_err (e : ErrKind) (s : State) : (raise e s).err = e.code := rfl
@[simp] theorem raise_mem (e : ErrKind) (s : State) : (raise e s).mem = s.mem := rfl
@[simp] theorem raise_disp (e : ErrKind) (s : State) : (raise e s).disp = s.disp := rfl
@[simp] theorem raise_env (e : ErrKind) (s : State) : (raise e s).env = s.env := rfl
@[simp] theorem raise_v (e : ErrKind) (s : State) (r : Nibble) : (raise e s).v r = s.v r := rfl

@[simp] theorem beginCycle_regs (s : State) : (beginCycle s).regs = s.regs := rfl
@[simp] theorem beginCycle_i (s : State) : (beginCycle s).i = s.i := rfl
@[simp] theorem beginCycle_dt (s : State) : (beginCycle s).dt = s.dt := rfl
@[simp] theorem beginCycle_st (s : State) : (beginCycle s).st = s.st := rfl
@[simp] theorem beginCycle_pc (s : State) : (beginCycle s).pc = s.pc := rfl
@[simp] theorem beginCycle_sp (s : State) : (beginCycle s).sp = s.sp := rfl
@[simp] theorem beginCycle_stk (s : State) : (beginCycle s).stk = s.stk := rfl
@[simp] theorem beginCycle_ir (s : State) : (beginCycle s).ir = s.ir := rfl
@[simp] theorem beginCycle_halt (s : State) : (beginCycle s).halt = s.halt := rfl
@[simp] theorem beginCycle_err (s : State) : (beginCycle s).err = s.err := rfl
@[simp] theorem beginCycle_mem (s : State) : (beginCycle s).mem = s.mem := rfl
@[simp] theorem beginCycle_disp (s : State) : (beginCycle s).disp = s.disp := rfl
@[simp] theorem beginCycle_env (s : State) : (beginCycle s).env = { s.env with pins := nextPins s.env, queue := s.env.queue.tail, cycle := s.env.cycle + 1, phase := .running } := rfl
@[simp] theorem beginCycle_v (s : State) (r : Nibble) : (beginCycle s).v r = s.v r := rfl

end Sys2Proof.Machine
end

