-- ==== Sys2Proof/Laws/Ops.lean ====
section
/-! SUPPORT. For each shared operation, once, everything it can do. -/

namespace Sys2Proof.Machine

/-! ## Bounds test -/

theorem inRange_iff (base len : Nat) : inRange base len = true ↔ len = 0 ∨ base + len ≤ memSize := by
  simp [inRange]

theorem guarded_ok {base len : Nat} (h : inRange base len = true) (s done : State) :
    guarded base len s done = .next done := by simp [guarded, h]

theorem guarded_out {base len : Nat} (h : inRange base len = false) (s done : State) :
    guarded base len s done = .next (raise .outOfBoundsAccess s) := by simp [guarded, h]

theorem guarded_cases {base len : Nat} {s done t : State} (h : guarded base len s done = .next t) :
    (inRange base len = true ∧ t = done) ∨ (inRange base len = false ∧ t = raise .outOfBoundsAccess s) := by
  cases hr : inRange base len with
  | true => rw [guarded_ok hr] at h; cases h; exact .inl ⟨rfl, rfl⟩
  | false => rw [guarded_out hr] at h; cases h; exact .inr ⟨rfl, rfl⟩

/-! ## Flags and skips -/

theorem setResultFlag_v (x r : Nibble) (b : Byte) (f : Bool) (s : State) :
    (setResultFlag x b f s).v r = if r = vf then flagByte f else if r = x then b else s.v r := by
  simp [setResultFlag, State.v_setV]

theorem flagByte_cases (f : Bool) : flagByte f = 0x00 ∨ flagByte f = 0x01 := by cases f <;> simp [flagByte]

theorem skipIf_eq (c : Bool) (s : State) : skipIf c s = s.setPc (if c then s.pc + 2 else s.pc) := by
  cases c <;> rfl

/-! ## The stack -/

theorem callTo_cases {target : Word} {s t : State} (h : callTo target s = .next t) :
    (∃ hs : s.sp.toNat < stackDepth, t = (pushPc s hs).setPc target) ∨
      (s.sp.toNat = stackDepth ∧ t = raise .stackOverflow s) := by
  unfold callTo at h
  split at h
  · next hs => cases h; exact .inl ⟨hs, rfl⟩
  · split at h
    · next he => cases h; exact .inr ⟨he, rfl⟩
    · cases h

theorem returnFrom_cases {s t : State} (h : returnFrom s = .next t) :
    (s.sp.toNat = 0 ∧ t = raise .stackUnderflow s) ∨
      (0 < s.sp.toNat ∧ ∃ hs : s.sp.toNat - 1 < stackDepth,
        t = { s with sp := s.sp - 1, pc := s.stkAt (s.sp.toNat - 1) hs }) := by
  unfold returnFrom at h
  split at h
  · next he => cases h; exact .inl ⟨he, rfl⟩
  · next he =>
    split at h
    · next hs => cases h; exact .inr ⟨by omega, hs, rfl⟩
    · cases h

/-! ## Register blocks -/

/-- The block load (R191): registers up to `k` come from memory, the others stay. -/
theorem loadBlock_v (s : State) (base : Nat) (k : Nat) (hk : k < 16) (r : Nibble) :
    (loadBlock s base k).v r = if r.toNat ≤ k then s.mem.get (base + r.toNat) else s.v r := by
  induction k with
  | zero =>
    simp only [loadBlock, State.v_setV]
    by_cases h : r = 0
    · subst h; simp
    · have : ¬ r.toNat ≤ 0 := by
        intro h0; exact h (BitVec.eq_of_toNat_eq (by simpa using h0))
      rw [if_neg h, if_neg this]
  | succ k ih =>
    simp only [loadBlock, State.v_setV, ih (by omega)]
    by_cases h : r = BitVec.ofNat 4 (k + 1)
    · subst h; simp [Nat.mod_eq_of_lt hk]
    · have : r.toNat ≠ k + 1 := by
        intro h0; exact h (BitVec.eq_of_toNat_eq (by simpa [Nat.mod_eq_of_lt hk] using h0))
      simp only [h, if_false]
      by_cases h2 : r.toNat ≤ k
      · rw [if_pos h2, if_pos (by omega)]
      · rw [if_neg h2, if_neg (by omega)]

/-- The block load changes the register file alone. -/
theorem loadBlock_rest (s : State) (base k : Nat) : ∃ rs, loadBlock s base k = { s with regs := rs } := by
  induction k with
  | zero => exact ⟨_, rfl⟩
  | succ k ih => obtain ⟨rs, h⟩ := ih; exact ⟨_, by rw [loadBlock, h]; rfl⟩

theorem blockValues_length (s : State) (x : Nibble) : (blockValues s x).length = x.toNat + 1 := by
  simp [blockValues]

theorem blockValues_getD (s : State) (x r : Nibble) (h : r.toNat ≤ x.toNat) :
    (blockValues s x).getD r.toNat 0x00 = s.v r := by
  simp [blockValues, List.getD, List.getElem?_range (show r.toNat < x.toNat + 1 by omega)]

/-! ## Keys -/

theorem exists_key {keys : BitVec 16} (h : keys ≠ 0x0000) : ∃ k, k < 16 ∧ keys.getLsbD k = true := by
  by_contra hn
  apply h
  apply BitVec.eq_of_getLsbD_eq
  intro i hi
  have : ¬ keys.getLsbD i = true := fun hb => hn ⟨i, hi, hb⟩
  simpa using this

/-- The lowest pressed key is pressed, and no lower one is (R184). -/
theorem lowestKey_spec {keys : BitVec 16} (h : keys ≠ 0x0000) :
    keys.getLsbD (lowestKey keys).toNat = true ∧ ∀ k, k < (lowestKey keys).toNat → keys.getLsbD k = false := by
  obtain ⟨k, hk, hb⟩ := exists_key h
  cases hf : (List.range 16).find? (fun k => keys.getLsbD k) with
  | none => exact absurd hb (by simpa using List.find?_eq_none.mp hf k (List.mem_range.mpr hk))
  | some j =>
    have hj : j < 16 := List.mem_range.mp (List.mem_of_find?_eq_some hf)
    have hl : (lowestKey keys).toNat = j := by simp [lowestKey, hf, Nat.mod_eq_of_lt hj]
    rw [hl]
    refine ⟨by simpa using List.find?_some hf, fun i hi => ?_⟩
    rw [List.find?_range_eq_some] at hf
    simpa using hf.2.2 i hi

/-! ## Fetch and step -/

theorem fetch_ok {s : State} (h : s.pc.toNat + 1 < memSize) :
    fetch s = some { s with ir := fetchWord s, pc := s.pc + 2 } := by
  simp only [fetch]; rw [if_neg (by omega)]

theorem fetch_out {s : State} (h : memSize ≤ s.pc.toNat + 1) : fetch s = none := by
  simp only [fetch]; rw [if_pos h]

/-- What `step` does on a booted CORE that is not halted. -/
theorem step_live {s : State} (hb : s.env.phase ≠ .constructed) (hh : s.halt = false) :
    step s = runCycle (beginCycle s) := by
  unfold step
  split
  · next hp => exact absurd hp hb
  · simp [hh]

theorem step_halted {s : State} (hb : s.env.phase ≠ .constructed) (hh : s.halt = true) : step s = .next s := by
  unfold step
  split
  · next hp => exact absurd hp hb
  · simp [hh]

/-- The state the Execute stage sees: inputs driven, IR the fetched word, pc advanced by 2 (R111). -/
def fetched (s : State) : State := { beginCycle s with ir := fetchWord s, pc := s.pc + 2 }

theorem step_fetched {s : State} (hb : s.env.phase ≠ .constructed) (hh : s.halt = false)
    (hp : s.pc.toNat + 1 < memSize) :
    step s = match decode (fetchWord s) with
      | .ok i => exec i (fetched s)
      | .error _ => execUndecoded hwConfig (fetched s) := by
  rw [step_live hb hh, runCycle, fetch_ok (show (beginCycle s).pc.toNat + 1 < memSize from hp)]
  rfl

/-- Everything a step can do when it answers a next state. -/
theorem step_cases {s t : State} (h : step s = .next t) :
    (s.halt = true ∧ t = s) ∨
      (s.halt = false ∧ memSize ≤ s.pc.toNat + 1 ∧ t = raise .outOfBoundsAccess (beginCycle s)) ∨
      (s.halt = false ∧ s.pc.toNat + 1 < memSize ∧ ∃ i, decode (fetchWord s) = .ok i ∧ exec i (fetched s) = .next t) ∨
      (s.halt = false ∧ s.pc.toNat + 1 < memSize ∧ ∃ e, decode (fetchWord s) = .error e ∧
        execUndecoded hwConfig (fetched s) = .next t) := by
  have hb : s.env.phase ≠ .constructed := by
    intro hp; unfold step at h; rw [hp] at h; cases h
  cases hh : s.halt with
  | true => rw [step_halted hb hh] at h; cases h; exact .inl ⟨rfl, rfl⟩
  | false =>
    refine .inr ?_
    by_cases hp : s.pc.toNat + 1 < memSize
    · refine .inr ?_
      rw [step_fetched hb hh hp] at h
      cases hd : decode (fetchWord s) with
      | ok i => rw [hd] at h; exact .inl ⟨rfl, hp, i, rfl, h⟩
      | error e => rw [hd] at h; exact .inr ⟨rfl, hp, e, rfl, h⟩
    · rw [step_live hb hh, runCycle, fetch_out (show memSize ≤ (beginCycle s).pc.toNat + 1 by simpa using by omega)] at h
      cases h
      exact .inl ⟨rfl, by omega, rfl⟩

/-- With GET_SOUND_SEL absent a word outside the table only reports (R92, R114). -/
theorem execUndecoded_hw (s : State) : execUndecoded hwConfig s = .next (reportUnknown s) := rfl

end Sys2Proof.Machine
end

