-- ==== Sys2Proof/Laws/PerInstr.lean ====
section
/-! SUPPORT. Per instruction: its word matches its own row of the opcode table (spec/30_encoding.md R95). -/

namespace Sys2Proof.Laws.RowMatch

/-- The word of `i` matches the mask and the match of the row of R95 that `i` belongs to. -/
def Statement (i : Instr) : Prop := ∃ r ∈ opcodeTable, r.number = i.rowNumber ∧ r.matchesWord (encode i) = true

theorem cls : Statement .cls :=
  ⟨⟨1, 0xFFFF, 0x00E0⟩, by decide, rfl, by decide⟩

theorem ret : Statement .ret :=
  ⟨⟨2, 0xFFFF, 0x00EE⟩, by decide, rfl, by decide⟩

theorem jp (nnn : Addr) : Statement (.jp nnn) :=
  ⟨⟨3, 0xF000, 0x1000⟩, by decide, rfl, by
    simp [OpcodeRow.matchesWord, and_maskG, encode]; decide⟩

theorem call (nnn : Addr) : Statement (.call nnn) :=
  ⟨⟨4, 0xF000, 0x2000⟩, by decide, rfl, by
    simp [OpcodeRow.matchesWord, and_maskG, encode]; decide⟩

theorem seByte (x : Nibble) (kk : Byte) : Statement (.seByte x kk) :=
  ⟨⟨5, 0xF000, 0x3000⟩, by decide, rfl, by
    simp [OpcodeRow.matchesWord, and_maskG, encode]; decide⟩

theorem sneByte (x : Nibble) (kk : Byte) : Statement (.sneByte x kk) :=
  ⟨⟨6, 0xF000, 0x4000⟩, by decide, rfl, by
    simp [OpcodeRow.matchesWord, and_maskG, encode]; decide⟩

theorem seReg (x : Nibble) (y : Nibble) : Statement (.seReg x y) :=
  ⟨⟨7, 0xF00F, 0x5000⟩, by decide, rfl, by
    simp [OpcodeRow.matchesWord, and_maskGN, encode]; decide⟩

theorem ldByte (x : Nibble) (kk : Byte) : Statement (.ldByte x kk) :=
  ⟨⟨8, 0xF000, 0x6000⟩, by decide, rfl, by
    simp [OpcodeRow.matchesWord, and_maskG, encode]; decide⟩

theorem addByte (x : Nibble) (kk : Byte) : Statement (.addByte x kk) :=
  ⟨⟨9, 0xF000, 0x7000⟩, by decide, rfl, by
    simp [OpcodeRow.matchesWord, and_maskG, encode]; decide⟩

theorem ldReg (x : Nibble) (y : Nibble) : Statement (.ldReg x y) :=
  ⟨⟨10, 0xF00F, 0x8000⟩, by decide, rfl, by
    simp [OpcodeRow.matchesWord, and_maskGN, encode]; decide⟩

theorem orReg (x : Nibble) (y : Nibble) : Statement (.orReg x y) :=
  ⟨⟨11, 0xF00F, 0x8001⟩, by decide, rfl, by
    simp [OpcodeRow.matchesWord, and_maskGN, encode]; decide⟩

theorem andReg (x : Nibble) (y : Nibble) : Statement (.andReg x y) :=
  ⟨⟨12, 0xF00F, 0x8002⟩, by decide, rfl, by
    simp [OpcodeRow.matchesWord, and_maskGN, encode]; decide⟩

theorem xorReg (x : Nibble) (y : Nibble) : Statement (.xorReg x y) :=
  ⟨⟨13, 0xF00F, 0x8003⟩, by decide, rfl, by
    simp [OpcodeRow.matchesWord, and_maskGN, encode]; decide⟩

theorem addReg (x : Nibble) (y : Nibble) : Statement (.addReg x y) :=
  ⟨⟨14, 0xF00F, 0x8004⟩, by decide, rfl, by
    simp [OpcodeRow.matchesWord, and_maskGN, encode]; decide⟩

theorem subReg (x : Nibble) (y : Nibble) : Statement (.subReg x y) :=
  ⟨⟨15, 0xF00F, 0x8005⟩, by decide, rfl, by
    simp [OpcodeRow.matchesWord, and_maskGN, encode]; decide⟩

theorem shr (x : Nibble) (y : Nibble) : Statement (.shr x y) :=
  ⟨⟨16, 0xF00F, 0x8006⟩, by decide, rfl, by
    simp [OpcodeRow.matchesWord, and_maskGN, encode]; decide⟩

theorem subnReg (x : Nibble) (y : Nibble) : Statement (.subnReg x y) :=
  ⟨⟨17, 0xF00F, 0x8007⟩, by decide, rfl, by
    simp [OpcodeRow.matchesWord, and_maskGN, encode]; decide⟩

theorem shl (x : Nibble) (y : Nibble) : Statement (.shl x y) :=
  ⟨⟨18, 0xF00F, 0x800E⟩, by decide, rfl, by
    simp [OpcodeRow.matchesWord, and_maskGN, encode]; decide⟩

theorem sneReg (x : Nibble) (y : Nibble) : Statement (.sneReg x y) :=
  ⟨⟨19, 0xF00F, 0x9000⟩, by decide, rfl, by
    simp [OpcodeRow.matchesWord, and_maskGN, encode]; decide⟩

theorem ldI (nnn : Addr) : Statement (.ldI nnn) :=
  ⟨⟨20, 0xF000, 0xA000⟩, by decide, rfl, by
    simp [OpcodeRow.matchesWord, and_maskG, encode]; decide⟩

theorem jpV0 (nnn : Addr) : Statement (.jpV0 nnn) :=
  ⟨⟨21, 0xF000, 0xB000⟩, by decide, rfl, by
    simp [OpcodeRow.matchesWord, and_maskG, encode]; decide⟩

theorem rnd (x : Nibble) (kk : Byte) : Statement (.rnd x kk) :=
  ⟨⟨22, 0xF000, 0xC000⟩, by decide, rfl, by
    simp [OpcodeRow.matchesWord, and_maskG, encode]; decide⟩

theorem drw (x : Nibble) (y : Nibble) (n : Nibble) : Statement (.drw x y n) :=
  ⟨⟨23, 0xF000, 0xD000⟩, by decide, rfl, by
    simp [OpcodeRow.matchesWord, and_maskG, encode]; decide⟩

theorem skp (x : Nibble) : Statement (.skp x) :=
  ⟨⟨24, 0xF0FF, 0xE09E⟩, by decide, rfl, by
    simp [OpcodeRow.matchesWord, and_maskGK, encode]; decide⟩

theorem sknp (x : Nibble) : Statement (.sknp x) :=
  ⟨⟨25, 0xF0FF, 0xE0A1⟩, by decide, rfl, by
    simp [OpcodeRow.matchesWord, and_maskGK, encode]; decide⟩

theorem ldVxDt (x : Nibble) : Statement (.ldVxDt x) :=
  ⟨⟨26, 0xF0FF, 0xF007⟩, by decide, rfl, by
    simp [OpcodeRow.matchesWord, and_maskGK, encode]; decide⟩

theorem ldVxK (x : Nibble) : Statement (.ldVxK x) :=
  ⟨⟨27, 0xF0FF, 0xF00A⟩, by decide, rfl, by
    simp [OpcodeRow.matchesWord, and_maskGK, encode]; decide⟩

theorem ldDtVx (x : Nibble) : Statement (.ldDtVx x) :=
  ⟨⟨28, 0xF0FF, 0xF015⟩, by decide, rfl, by
    simp [OpcodeRow.matchesWord, and_maskGK, encode]; decide⟩

theorem ldStVx (x : Nibble) : Statement (.ldStVx x) :=
  ⟨⟨29, 0xF0FF, 0xF018⟩, by decide, rfl, by
    simp [OpcodeRow.matchesWord, and_maskGK, encode]; decide⟩

theorem addI (x : Nibble) : Statement (.addI x) :=
  ⟨⟨30, 0xF0FF, 0xF01E⟩, by decide, rfl, by
    simp [OpcodeRow.matchesWord, and_maskGK, encode]; decide⟩

theorem ldF (x : Nibble) : Statement (.ldF x) :=
  ⟨⟨31, 0xF0FF, 0xF029⟩, by decide, rfl, by
    simp [OpcodeRow.matchesWord, and_maskGK, encode]; decide⟩

theorem ldB (x : Nibble) : Statement (.ldB x) :=
  ⟨⟨32, 0xF0FF, 0xF033⟩, by decide, rfl, by
    simp [OpcodeRow.matchesWord, and_maskGK, encode]; decide⟩

theorem ldMemVx (x : Nibble) : Statement (.ldMemVx x) :=
  ⟨⟨33, 0xF0FF, 0xF055⟩, by decide, rfl, by
    simp [OpcodeRow.matchesWord, and_maskGK, encode]; decide⟩

theorem ldVxMem (x : Nibble) : Statement (.ldVxMem x) :=
  ⟨⟨34, 0xF0FF, 0xF065⟩, by decide, rfl, by
    simp [OpcodeRow.matchesWord, and_maskGK, encode]; decide⟩

end Sys2Proof.Laws.RowMatch
end

