-- ==== Sys2Proof/Tests/Slice0.lean ====
section
/-! SUPPORT. The model's own tests: well-formedness, decoded words, single steps, and a witness for the hypotheses of every statement. Expected results are those of spec/95_test_vectors.md (named by their ids) or worked by hand from the rule named. -/

namespace Sys2Proof.Machine.Tests

open Sys2Proof Sys2Proof.Machine

/-- One value of the next state an answer holds. -/
def after {α : Type} (a : Answer) (f : State → α) : Option α := (nextState? a).map f

/-- The state after reset with one or two registers set. -/
def with1 (x : Nibble) (a : Byte) : State := State.reset.setV x a

def with2 (x : Nibble) (a : Byte) (y : Nibble) (b : Byte) : State := (State.reset.setV x a).setV y b

/-- `s` with `k` in its input KEYS. -/
def withKeys (k : BitVec 16) (s : State) : State := withPins { keys := k, rand := 0 } s

/-- `s` with the word `w` stored at `pc`. -/
def at' (w : Nat) (s : State) : State := s.withFetchWord 16 w


/-! ## Well-formedness: one ill-formed term for each check (00_scope.md R5) -/

theorem test_hw_config_wf : hwConfig.wf = true := by decide

theorem test_display_too_large : ({ hwConfig with dispW := 128, dispH := 32 } : Config).displayFits = false := by decide

theorem test_display_too_narrow : ({ hwConfig with dispW := 7 } : Config).spriteFits = false := by decide

theorem test_display_too_low : ({ hwConfig with dispH := 14 } : Config).spriteFits = false := by decide

theorem test_font_too_high : ({ hwConfig with fontBase := 0x1B1 } : Config).fontFits = false := by decide

theorem test_sound_selector_taken : ({ hwConfig with getSoundSel := some 0x33 } : Config).soundSelFree = false := by decide

theorem test_ill_formed_refused : ({ hwConfig with getSoundSel := some 0x33 } : Config).wf = false ∧ ({ hwConfig with dispW := 7 } : Config).wf = false := by decide

theorem test_instr_wf : Instr.wf (.drw 15 15 15) = true ∧ Instr.wf (.jp 0xFFF) = true := by decide


/-! ## Decoding: a word for every constructor, written out from its pattern in R95 (ids of 95_test_vectors.md where it has one) -/

theorem test_decode_cls : decodeBytes [0b00000000#8, 0b11100000#8] = .ok (.cls, []) := by rfl

theorem test_decode_ret : decodeBytes [0b00000000#8, 0b11101110#8] = .ok (.ret, []) := by rfl

theorem test_decode_jp : decodeBytes [0b00010010#8, 0b00110100#8] = .ok (.jp 0x234, []) := by rfl

theorem test_decode_call : decodeBytes [0b00101111#8, 0b11111111#8] = .ok (.call 0xFFF, []) := by rfl

theorem test_decode_seByte : decodeBytes [0b00111010#8, 0b01000010#8] = .ok (.seByte 10 0x42, []) := by rfl

theorem test_decode_sneByte : decodeBytes [0b01000001#8, 0b00000101#8] = .ok (.sneByte 1 0x05, []) := by rfl

theorem test_decode_seReg : decodeBytes [0b01010001#8, 0b00100000#8] = .ok (.seReg 1 2, []) := by rfl

theorem test_decode_ldByte : decodeBytes [0b01101010#8, 0b00101111#8] = .ok (.ldByte 10 0x2F, []) := by rfl

theorem test_decode_addByte : decodeBytes [0b01110001#8, 0b11111111#8] = .ok (.addByte 1 0xFF, []) := by rfl

theorem test_decode_ldReg : decodeBytes [0b10000001#8, 0b00100000#8] = .ok (.ldReg 1 2, []) := by rfl

theorem test_decode_orReg : decodeBytes [0b10000001#8, 0b00100001#8] = .ok (.orReg 1 2, []) := by rfl

theorem test_decode_andReg : decodeBytes [0b10000001#8, 0b00100010#8] = .ok (.andReg 1 2, []) := by rfl

theorem test_decode_xorReg : decodeBytes [0b10000001#8, 0b00100011#8] = .ok (.xorReg 1 2, []) := by rfl

theorem test_decode_addReg : decodeBytes [0b10001010#8, 0b10110100#8] = .ok (.addReg 10 11, []) := by rfl

theorem test_decode_subReg : decodeBytes [0b10000001#8, 0b00100101#8] = .ok (.subReg 1 2, []) := by rfl

theorem test_decode_shr : decodeBytes [0b10001111#8, 0b00000110#8] = .ok (.shr 15 0, []) := by rfl

theorem test_decode_subnReg : decodeBytes [0b10000001#8, 0b00100111#8] = .ok (.subnReg 1 2, []) := by rfl

theorem test_decode_shl : decodeBytes [0b10001010#8, 0b10111110#8] = .ok (.shl 10 11, []) := by rfl

theorem test_decode_sneReg : decodeBytes [0b10011010#8, 0b10110000#8] = .ok (.sneReg 10 11, []) := by rfl

theorem test_decode_ldI : decodeBytes [0b10100010#8, 0b11110000#8] = .ok (.ldI 0x2F0, []) := by rfl

theorem test_decode_jpV0 : decodeBytes [0b10111111#8, 0b11111111#8] = .ok (.jpV0 0xFFF, []) := by rfl

theorem test_decode_rnd : decodeBytes [0b11000000#8, 0b11111111#8] = .ok (.rnd 0 0xFF, []) := by rfl

theorem test_decode_drw : decodeBytes [0b11010001#8, 0b00100101#8] = .ok (.drw 1 2 5, []) := by rfl

theorem test_decode_skp : decodeBytes [0b11100001#8, 0b10011110#8] = .ok (.skp 1, []) := by rfl

theorem test_decode_sknp : decodeBytes [0b11100001#8, 0b10100001#8] = .ok (.sknp 1, []) := by rfl

theorem test_decode_ldVxDt : decodeBytes [0b11110000#8, 0b00000111#8] = .ok (.ldVxDt 0, []) := by rfl

theorem test_decode_ldVxK : decodeBytes [0b11110001#8, 0b00001010#8] = .ok (.ldVxK 1, []) := by rfl

theorem test_decode_ldDtVx : decodeBytes [0b11110011#8, 0b00010101#8] = .ok (.ldDtVx 3, []) := by rfl

theorem test_decode_ldStVx : decodeBytes [0b11110011#8, 0b00011000#8] = .ok (.ldStVx 3, []) := by rfl

theorem test_decode_addI : decodeBytes [0b11110010#8, 0b00011110#8] = .ok (.addI 2, []) := by rfl

theorem test_decode_ldF : decodeBytes [0b11110001#8, 0b00101001#8] = .ok (.ldF 1, []) := by rfl

theorem test_decode_ldB : decodeBytes [0b11110000#8, 0b00110011#8] = .ok (.ldB 0, []) := by rfl

theorem test_decode_ldMemVx : decodeBytes [0b11110010#8, 0b01010101#8] = .ok (.ldMemVx 2, []) := by rfl

theorem test_decode_ldVxMem : decodeBytes [0b11111111#8, 0b01100101#8] = .ok (.ldVxMem 15, []) := by rfl

theorem test_unknown_0000 : decode 0x0000 = .error .unknownGroup0 := by rfl

theorem test_unknown_00E1 : decode 0x00E1 = .error .unknownGroup0 := by rfl

theorem test_unknown_0120 : decode 0x0120 = .error .unknownGroup0 := by rfl

theorem test_unknown_0FFE : decode 0x0FFE = .error .unknownGroup0 := by rfl

theorem test_unknown_5121 : decode 0x5121 = .error .unknownGroup5 := by rfl

theorem test_unknown_8AB8 : decode 0x8AB8 = .error .unknownGroup8 := by rfl

theorem test_unknown_8ABF : decode 0x8ABF = .error .unknownGroup8 := by rfl

theorem test_unknown_9AB1 : decode 0x9AB1 = .error .unknownGroup9 := by rfl

theorem test_unknown_E19F : decode 0xE19F = .error .unknownGroupE := by rfl

theorem test_unknown_F000 : decode 0xF000 = .error .unknownGroupF := by rfl

theorem test_unknown_F075 : decode 0xF075 = .error .unknownGroupF := by rfl

theorem test_unknown_F308 : decode 0xF308 = .error .unknownGroupF := by rfl

theorem test_truncated : decodeBytes [0x12] = .error .truncated := by rfl

theorem test_table_word : decodeTableWord 16 0x8AB4 = some (.addReg 10 11) ∧ decodeTableWord 16 0x0005 = none := by decide

/-- V-ENC29. -/
theorem test_sound_word : decodeSound { hwConfig with getSoundSel := some 0x08 } 0xF308 = some 3 ∧ decodeSound hwConfig 0xF308 = none := by decide


/-! ## The Cycle (40_fetch_dispatch.md) -/

/-- S1. -/
theorem test_fetch_big_endian : after (step (at' 0x6A2F State.reset)) (fun t => (t.ir, t.pc, t.v 10)) = some (0x6A2F, 0x202, 0x2F) := by decide

/-- V-F2. -/
theorem test_fetch_odd : after (step (at' 0x6007 (State.reset.setPc 0x201))) (fun t => (t.ir, t.pc, t.v 0)) = some (0x6007, 0x203, 0x07) := by decide

/-- V-F3. -/
theorem test_fetch_last : after (step (at' 0x6001 (State.reset.setPc 0xFFE))) (fun t => (t.pc, t.halt)) = some (0x1000, false) := by decide

/-- V-F4. -/
theorem test_fetch_out : after (step (withFetch 0xFFF 0x1FFF State.reset)) (fun t => (t.halt, t.err, t.pc, t.ir)) = some (true, 4, 0xFFF, 0x1FFF) := by decide

/-- V-F6. -/
theorem test_halted : after (step (raise .stackOverflow State.reset)) (fun t => decide (t = raise .stackOverflow State.reset)) = some true := by decide

/-- S9. -/
theorem test_unknown_reported : after (step (at' 0x0005 State.reset)) (fun t => (t.ir, t.pc, t.halt, t.env.reports)) = some (0x0005, 0x202, false, [0x0005]) := by decide

/-- R241. -/
theorem test_never_reset : step constructed = .refused .neverReset ∧ driverStep .tick constructed = .refused .neverReset := ⟨rfl, rfl⟩

/-- P7: the byte stored at 0x206 is the next fetch's high byte. -/
theorem test_self_modified : after (exec (.ldMemVx 0) ((with1 0 0x61).setI 0x206)) (fun t => (fetch (withFetch 0x206 0 t)).map (fun u => u.ir)) = some (some 0x6100) := by decide


/-! ## Control flow (41_control_flow.md) -/

/-- V-CF20. -/
theorem test_cls : after (exec .cls (State.reset.setDisp [(0, 1), (100, 1), (2047, 1)])) (fun t => t.disp) = some [] := by decide

/-- V-CF15. -/
theorem test_ret : after (exec .ret { State.reset with sp := 2, stk := (State.reset.stk.set 0 0x0222).set 1 0x0456 }) (fun t => (t.sp, t.pc)) = some (1, 0x456) := by decide

/-- V-CF16. -/
theorem test_ret_underflow : after (exec .ret State.reset) (fun t => (t.halt, t.err, t.sp)) = some (true, 3, 0) := by decide

/-- S2. -/
theorem test_jp : after (step (at' 0x1ABC State.reset)) (fun t => t.pc) = some 0x0ABC := by decide

/-- V-CF13. -/
theorem test_call_last_entry : after (exec (.call 0x300) { State.reset with sp := 15, pc := 0x202 }) (fun t => (t.sp, t.pc, t.stk[15])) = some (16, 0x300, 0x202) := by decide

/-- V-CF14. -/
theorem test_call_overflow : after (exec (.call 0x300) { State.reset with sp := 16 }) (fun t => (t.halt, t.err, t.sp)) = some (true, 2, 16) := by decide

/-- V-CF3, V-CF4. -/
theorem test_se_byte : after (step (at' 0x3A42 (with1 10 0x42))) (fun t => t.pc) = some 0x204 ∧ after (step (at' 0x3A42 (with1 10 0x41))) (fun t => t.pc) = some 0x202 := by decide

/-- V-CF5, V-CF6. -/
theorem test_sne_byte : after (step (at' 0x4A42 (with1 10 0x42))) (fun t => t.pc) = some 0x202 ∧ after (step (at' 0x4A42 (with1 10 0x41))) (fun t => t.pc) = some 0x204 := by decide

/-- V-CF7, V-CF8. -/
theorem test_se_reg : after (step (at' 0x5120 (with2 1 7 2 7))) (fun t => t.pc) = some 0x204 ∧ after (step (at' 0x5120 (with2 1 7 2 8))) (fun t => t.pc) = some 0x202 := by decide

/-- V-CF9, V-CF10. -/
theorem test_sne_reg : after (step (at' 0x9120 (with2 1 7 2 8))) (fun t => t.pc) = some 0x204 ∧ after (step (at' 0x9330 (with1 3 0x99))) (fun t => t.pc) = some 0x202 := by decide

/-- V-CF18. -/
theorem test_jp_v0 : after (step (at' 0xBFFF (with1 0 0xFF))) (fun t => t.pc) = some 0x10FE := by decide

/-- V-CF19. -/
theorem test_jp_v0_ignores_x : after (step (at' 0xB345 (with1 3 0x55))) (fun t => t.pc) = some 0x345 := by decide


/-! ## Data and arithmetic (42_data_arithmetic.md) -/

/-- V-A44. -/
theorem test_ld_byte : after (exec (.ldByte 15 0x55) (with1 15 0x07)) (fun t => t.v 15) = some 0x55 := by decide

/-- V-A2. -/
theorem test_add_byte : after (exec (.addByte 1 0x01) (with2 1 0xFF 15 0x07)) (fun t => (t.v 1, t.v 15)) = some (0x00, 0x07) := by decide

/-- V-A4. -/
theorem test_ld_reg : after (exec (.ldReg 1 2) (with1 2 0x77)) (fun t => t.v 1) = some 0x77 := by decide

/-- V-A5. -/
theorem test_or : after (exec (.orReg 1 2) ((with2 1 0xF0 2 0x0F).setV 15 7)) (fun t => (t.v 1, t.v 15)) = some (0xFF, 7) := by decide

/-- V-A6. -/
theorem test_and : after (exec (.andReg 1 2) ((with2 1 0xF5 2 0x3C).setV 15 7)) (fun t => (t.v 1, t.v 15)) = some (0x34, 7) := by decide

/-- V-A7. -/
theorem test_xor : after (exec (.xorReg 1 2) ((with2 1 0xFF 2 0x0F).setV 15 7)) (fun t => (t.v 1, t.v 15)) = some (0xF0, 7) := by decide

/-- S5, V-A13. -/
theorem test_add_carry : after (exec (.addReg 1 2) (with2 1 0xFF 2 0x01)) (fun t => (t.v 1, t.v 15)) = some (0x00, 0x01) ∧ after (exec (.addReg 1 2) (with2 1 0xFE 2 0x01)) (fun t => (t.v 1, t.v 15)) = some (0xFF, 0x00) := by decide

/-- V-A33, V-A35. -/
theorem test_add_vf : after (exec (.addReg 15 2) (with2 15 0xF0 2 0x20)) (fun t => t.v 15) = some 0x01 ∧ after (exec (.addReg 1 15) (with2 1 0x10 15 0x05)) (fun t => (t.v 1, t.v 15)) = some (0x15, 0x00) := by decide

/-- S6. -/
theorem test_sub : after (exec (.subReg 1 2) (with2 1 0x05 2 0x03)) (fun t => (t.v 1, t.v 15)) = some (0x02, 0x01) ∧ after (exec (.subReg 1 2) (with2 1 0x03 2 0x05)) (fun t => (t.v 1, t.v 15)) = some (0xFE, 0x00) := by decide

/-- V-A38, V-A31. -/
theorem test_sub_vf : after (exec (.subReg 15 2) (with2 15 0x04 2 0x09)) (fun t => t.v 15) = some 0x00 ∧ after (exec (.subReg 3 3) (with1 3 0x90)) (fun t => (t.v 3, t.v 15)) = some (0x00, 0x01) := by decide

/-- V-A19. -/
theorem test_shr : after (exec (.shr 1 2) (with2 1 0x03 2 0xAA)) (fun t => (t.v 1, t.v 15)) = some (0x01, 0x01) := by decide

/-- V-A40. -/
theorem test_shr_vf : after (exec (.shr 15 0) (with1 15 0x02)) (fun t => t.v 15) = some 0x00 := by decide

/-- V-A24, V-A25. -/
theorem test_subn : after (exec (.subnReg 1 2) (with2 1 0x05 2 0x03)) (fun t => (t.v 1, t.v 15)) = some (0xFE, 0x00) ∧ after (exec (.subnReg 1 2) (with2 1 0x09 2 0x09)) (fun t => (t.v 1, t.v 15)) = some (0x00, 0x01) := by decide

/-- V-A26. -/
theorem test_shl : after (exec (.shl 1 2) (with2 1 0x81 2 0xAA)) (fun t => (t.v 1, t.v 15)) = some (0x02, 0x01) := by decide

/-- V-A41. -/
theorem test_shl_vf : after (exec (.shl 15 0) (with1 15 0x40)) (fun t => t.v 15) = some 0x00 := by decide

/-- V-A45. -/
theorem test_ld_i : after (exec (.ldI 0x2F0) (State.reset.setI 0xFFFF)) (fun t => t.i) = some 0x02F0 := by decide

/-- V-A47. -/
theorem test_rnd : after (driverStep (.cycle { keys := 0, rand := 0xB7 }) (at' 0xC10F State.reset)) (fun t => t.v 1) = some 0x07 := by decide


/-! ## Display (43_display_key_timer_memory.md R180) -/

/-- V-D4. -/
theorem test_drw_wraps : after (exec (.drw 0 1 1) ((State.reset.setI 0x300).setMem [(0x300, 0xFF)] |>.setV 0 0x3E)) (fun t => (t.disp.map (fun c => c.1), t.v 15)) = some ([0, 1, 2, 3, 4, 5, 62, 63], 0x00) := by decide

/-- V-D7. -/
theorem test_drw_collision : after (exec (.drw 0 1 1) (((State.reset.setI 0x300).setMem [(0x300, 0xC0)]).setDisp [(1, 1)])) (fun t => (t.disp, t.v 15)) = some ([(0, 1)], 0x01) := by decide

/-- V-D11. -/
theorem test_drw_out : after (exec (.drw 0 1 2) ((with1 15 0x07).setI 0xFFF)) (fun t => (t.halt, t.err, t.v 15)) = some (true, 4, 0x07) := by decide

/-- V-D12. -/
theorem test_drw_vf_source : after (exec (.drw 15 1 1) (((with2 15 0x05 1 0x02).setI 0x300).setMem [(0x300, 0x80)])) (fun t => (t.disp, t.v 15)) = some ([(133, 1)], 0x00) := by decide


/-! ## Keys, timers, index, digits, blocks -/

/-- V-K5, V-K2. -/
theorem test_skp : after (exec (.skp 2) (withKeys 0x0400 ((with1 2 0x1A).setPc 0x202))) (fun t => t.pc) = some 0x204 ∧ after (exec (.skp 2) (withKeys 0xFFDF ((with1 2 0x05).setPc 0x202))) (fun t => t.pc) = some 0x202 := by decide

/-- V-K3, V-K4. -/
theorem test_sknp : after (exec (.sknp 2) (withKeys 0x0000 ((with1 2 0x05).setPc 0x202))) (fun t => t.pc) = some 0x204 ∧ after (exec (.sknp 2) (withKeys 0x0020 ((with1 2 0x05).setPc 0x202))) (fun t => t.pc) = some 0x202 := by decide

/-- V-K6, V-K7. -/
theorem test_key_wait : after (driverStep (.cycle { keys := 0x0000, rand := 0 }) (at' 0xF10A (with1 1 0x77))) (fun t => (t.pc, t.v 1)) = some (0x200, 0x77) ∧ after (driverStep (.cycle { keys := 0x0090, rand := 0 }) (at' 0xF10A State.reset)) (fun t => (t.pc, t.v 1)) = some (0x202, 0x04) := by decide

/-- V-K8. -/
theorem test_key_wait_highest : after (exec (.ldVxK 1) (withKeys 0x8000 State.reset)) (fun t => t.v 1) = some 0x0F := by decide

/-- V-T1. -/
theorem test_ld_dt : after (exec (.ldVxDt 3) (State.reset.setDt 0x3C)) (fun t => (t.v 3, t.dt)) = some (0x3C, 0x3C) := by decide

/-- V-T2. -/
theorem test_set_dt : after (exec (.ldDtVx 3) (with1 3 0x3C)) (fun t => t.dt) = some 0x3C := by decide

/-- V-T3. -/
theorem test_set_st : after (exec (.ldStVx 3) (with1 3 0x05)) (fun t => t.st) = some 0x05 := by decide

/-- V-T6, V-T7. -/
theorem test_tick : after (driverStep .tick ((State.reset.setDt 1).setSt 255)) (fun t => (t.dt, t.st)) = some (0, 254) ∧ after (driverStep .tick ((raise .stackOverflow State.reset).setDt 5)) (fun t => (t.dt, t.st, t.halt)) = some (4, 0, true) := by decide

/-- V-I4. -/
theorem test_add_i : after (exec (.addI 2) ((with2 2 0xFF 15 7).setI 0xFF80)) (fun t => (t.i, t.v 15)) = some (0x007F, 7) := by decide

/-- V-FN2. -/
theorem test_ld_f : after (exec (.ldF 1) (with1 1 0x1A)) (fun t => t.i) = some 0x0032 := by decide

/-- V-FN5. -/
theorem test_font_base : fontAddress { hwConfig with fontBase := 0x050 } 0xA = 0x0082 := by decide

/-- V-B6. -/
theorem test_bcd : after (exec (.ldB 0) ((with1 0 0x7B).setI 0xFFD)) (fun t => t.mem) = some [(0xFFD, 1), (0xFFE, 2), (0xFFF, 3)] := by decide

/-- V-B3; a byte 0x00 is not listed (log entry 1). -/
theorem test_bcd_zero : after (exec (.ldB 0) ((with1 0 0x00).setI 0x300 |>.setMem [(0x300, 0xAA), (0x301, 0xAA), (0x302, 0xAA)])) (fun t => t.mem) = some [] := by decide

/-- V-M4. -/
theorem test_block_store : after (exec (.ldMemVx 1) ((with2 0 0xAA 1 0xBB).setI 0xFFE)) (fun t => (t.mem, t.i)) = some ([(0xFFE, 0xAA), (0xFFF, 0xBB)], 0xFFE) := by decide

/-- V-M5. -/
theorem test_block_store_out : after (exec (.ldMemVx 2) ((with2 0 0xAA 1 0xBB).setI 0xFFE)) (fun t => (t.mem, t.halt, t.err)) = some ([], true, 4) := by decide

/-- V-M6. -/
theorem test_block_load : after (exec (.ldVxMem 2) ((with1 3 0x99).setI 0x300 |>.setMem [(0x300, 2), (0x301, 3), (0x302, 4)])) (fun t => (t.v 0, t.v 1, t.v 2, t.v 3, t.i)) = some (2, 3, 4, 0x99, 0x300) := by decide

/-- V-M8. -/
theorem test_block_load_out : after (exec (.ldVxMem 1) ((with2 0 0x55 1 0x66).setI 0xFFF)) (fun t => (t.v 0, t.v 1, t.halt, t.err)) = some (0x55, 0x66, true, 4) := by decide

/-- V-R1. -/
theorem test_reset_op : after (driverStep .reset ((raise .stackOverflow (with1 4 0xFF)).setMem [(0x200, 0x12)])) (fun t => (t.v 4, t.pc, t.halt, t.mem)) = some (0, 0x200, false, [(0x200, 0x12)]) := by decide

/-- R67, R243. -/
theorem test_load_window : after (driverStep (.load 0x200 [0x12, 0x34]) constructed) (fun t => t.mem) = some [(0x200, 0x12), (0x201, 0x34)] := by decide

/-- R67, U22. -/
theorem test_load_closed : driverStep (.load 0x200 [0x12]) (beginCycle State.reset) = .refused .loadWindowClosed ∧ driverStep (.load 0xFFF [1, 2]) State.reset = .refused .loadOutOfRange := ⟨rfl, rfl⟩

/-- R62: the 80 font bytes. -/
theorem test_font_length : fontBytes.length = 80 := by decide

/-- R66, R55. -/
theorem test_display_read : displayRead hwConfig (State.reset.setDisp [(2047, 1)]) 2047 = some 1 ∧ displayRead hwConfig State.reset 2048 = none := by decide


/-! ## Witnesses: a state and operands that meet each statement's hypotheses together -/

/-- EncodeOfDecodeIsTheWord. -/
theorem witness_encodeOfDecode : decode 0x8AB4 = .ok (.addReg 10 11) := rfl

/-- DecodeFollowsTheOpcodeTable, a word with a row. -/
theorem witness_rowMatches : ∃ r ∈ opcodeTable, r.matchesWord 0x8AB4 = true := ⟨⟨14, 0xF00F, 0x8004⟩, by decide, by decide⟩

/-- DecodeFollowsTheOpcodeTable, a word with none. -/
theorem witness_noRowMatches : ∀ r ∈ opcodeTable, r.matchesWord 0x8AB8 = false := by decide

/-- RegisterSkipsAdvanceOnTheirCondition: a word 5xyn or 9xyn with `n` not 0. -/
theorem witness_registerSkipOtherN : (1 : Nibble) ≠ 0 := by decide

/-- SecondarySelectorsOfGroups0589. -/
theorem witness_group8Unknown : (0x8 : Nibble) ∈ ([0x8, 0x9, 0xA, 0xB, 0xC, 0xD, 0xF] : List Nibble) := by decide

/-- TimerTicksCountDownAndClamp. -/
theorem witness_booted : Booted State.reset ∧ State.reset.halt = false := ⟨nofun, rfl⟩

/-- A live CORE with `0x6A2F` at the last fetchable address 4094. -/
def live : State := at' 0x6A2F (State.reset.setPc 0xFFE)

/-- StepRunsTheDecodedInstruction, at the boundary of the fetch range. -/
theorem witness_stepRuns : Booted live ∧ live.halt = false ∧ live.pc.toNat + 1 ≤ 4095 ∧
    (0x6A2F#16 = wordOfBytes (live.mem.get live.pc.toNat) (live.mem.get (live.pc.toNat + 1))) ∧ decode 0x6A2F = .ok (.ldByte 10 0x2F) := ⟨nofun, rfl, by decide, by decide, rfl⟩

/-- CycleRunsWithTheInputsPresented. -/
theorem witness_cycleInputs : Booted live ∧ live.halt = false ∧ live.pc.toNat + 1 ≤ 4095 ∧ decode (fetchWord live) = .ok (.ldByte 10 0x2F) := ⟨nofun, rfl, by decide, rfl⟩

/-- FetchIsBigEndianAndAdvancesByTwo, both clauses at 4094 and 4095. -/
theorem witness_fetchClauses : (State.reset.setPc 4094).pc.toNat + 1 ≤ 4095 ∧ (State.reset.setPc 4095).pc.toNat + 1 > 4095 := by decide

/-- FetchOutOfRangeHalts. -/
theorem witness_fetchOut : Booted (State.reset.setPc 4095) ∧ (State.reset.setPc 4095).halt = false ∧ (State.reset.setPc 4095).pc.toNat ≥ 4095 := ⟨nofun, rfl, by decide⟩

/-- UnknownWordIsAReportedNoOp. -/
theorem witness_unknownWord : Booted (State.reset.setPc 4094) ∧ (State.reset.setPc 4094).halt = false ∧ (State.reset.setPc 4094).pc.toNat + 1 ≤ 4095 ∧
    decode (fetchWord (State.reset.setPc 4094)) = .error .unknownGroup0 := ⟨nofun, rfl, by decide, rfl⟩

/-- HaltedCycleChangesNothing. -/
theorem witness_halted : Booted (raise .stackUnderflow State.reset) ∧ (raise .stackUnderflow State.reset).halt = true := ⟨nofun, rfl⟩

/-- NeverResetCoreRefusesCycleAndTick. -/
theorem witness_neverReset : ¬ Booted constructed := by simp [Booted, constructed]

/-- ProgramLoadOnlyBeforeTheFirstCycle, first clause at its upper boundary. -/
theorem witness_loadInRange : State.reset.env.phase ≠ .running ∧ 0xFFE + ([1, 2] : List Byte).length ≤ 4096 := by decide

/-- Its second clause. -/
theorem witness_loadOutOfRange : State.reset.env.phase ≠ .running ∧ ([1, 2] : List Byte) ≠ [] ∧ 4096 < 0xFFF + ([1, 2] : List Byte).length := by decide

/-- Its third clause. -/
theorem witness_loadClosed : Booted State.reset ∧ State.reset.halt = false ∧ ∃ t, step State.reset = .next t := ⟨nofun, rfl, _, rfl⟩

/-- CallPushesOrOverflows, ReturnUndoesCall: each clause at its boundary. -/
theorem witness_callClauses : ({ State.reset with sp := 15 } : State).sp.toNat < 16 ∧ ({ State.reset with sp := 16 } : State).sp.toNat = 16 ∧
    16 < ({ State.reset with sp := 17 } : State).sp.toNat := by decide

/-- ReturnPopsOrUnderflows: each clause at its boundary. -/
theorem witness_returnClauses : ({ State.reset with sp := 16 } : State).sp.toNat - 1 < 16 ∧ 0 < ({ State.reset with sp := 1 } : State).sp.toNat ∧
    State.reset.sp.toNat = 0 ∧ 16 < ({ State.reset with sp := 17 } : State).sp.toNat := by decide

/-- PcLawOfEveryInstruction. -/
theorem witness_pcLaw : live.halt = false ∧ live.pc.toNat + 1 ≤ 4095 ∧ decode (fetchWord live) = .ok (.ldByte 10 0x2F) ∧ ∃ t, step live = .next t := ⟨rfl, by decide, rfl, _, rfl⟩

/-- AddAndSubtractSetVf, ShiftsSetVfAndIgnoreY: the clause of a destination other than VF. -/
theorem witness_notVf : (14 : Nibble) ≠ 15 := by decide

/-- FlagWritersLeaveVfZeroOrOne. -/
theorem witness_flagWriter : writesFlag (.drw 1 2 5) = true ∧ writesFlag (.shl 1 2) = true := by decide

/-- Its first clause, a DRW whose last row is the top of memory and a flag writer that is no DRW. -/
theorem witness_flagInRange : (State.reset.setI 0xFFB).i.toNat + (5 : Nibble).toNat ≤ 4096 ∧ (∀ x y n, Instr.shl 1 2 ≠ .drw x y n) :=
  ⟨by decide, nofun⟩

/-- Its second clause, one address higher. -/
theorem witness_flagOutOfRange : 0 < (5 : Nibble).toNat ∧ 4096 < (State.reset.setI 0xFFC).i.toNat + (5 : Nibble).toNat := by decide

/-- RandomAndAdmitsEveryMaskedByte, last clause. -/
theorem witness_maskedByte : (0xF0 : Byte) &&& ~~~(0xF0 : Byte) = 0x00 := by decide

/-- A clear display with one byte of sprite at the top of memory, to be drawn in the lower right corner. -/
def corner : State := ((((with2 0 63 1 31)).setI 0xFFF).setMem [(0xFFF, 0xC0)])

/-- DrawTogglesExactlyTheCoveredPixels, DrawCompletesOnEveryDisplay: the last byte of memory. -/
theorem witness_drawInRange : CellsBinary corner ∧ corner.i.toNat + (1 : Nibble).toNat ≤ 4096 := ⟨fun _ => .inl rfl, by decide⟩

/-- Covered and uncovered pixels of it, the second one wrapped. -/
theorem witness_drawCovered : SpriteCovers corner 63 31 1 63 31 ∧ SpriteCovers corner 63 31 1 0 31 ∧ ¬ SpriteCovers corner 63 31 1 1 31 := by simp [SpriteCovers, corner, with2, hwConfig, Memory.get]

/-- The clause `n = 0`, with `I` out of range. -/
theorem witness_drawNone : (0 : Nibble) = 0 ∧ CellsBinary (State.reset.setI 0xFFFF) := ⟨rfl, fun _ => .inl rfl⟩

/-- DrawingTwiceRestoresTheDisplay. -/
theorem witness_drawTwice : CellsBinary corner ∧ corner.i.toNat + (1 : Nibble).toNat ≤ 4096 ∧ (0 : Nibble) ≠ 15 ∧ (1 : Nibble) ≠ 15 ∧
    ∀ a, corner.disp.get a = 0x00 := ⟨fun _ => .inl rfl, by decide, by decide, by decide, fun _ => rfl⟩

/-- KeyWaitPollsForTheLowestKey, both clauses. -/
theorem witness_keyClauses : (withKeys 0x0000 State.reset).env.pins.keys = 0x0000 ∧ (withKeys 0x8000 State.reset).env.pins.keys ≠ 0x0000 := by decide

/-- GetSoundTimerFollowsItsParameter, its second clause: the neighbour of the selected word. -/
theorem witness_soundOther : decode ({ State.reset with ir := 0xF309 } : State).ir = .error .unknownGroupF ∧
    ∀ x, ({ State.reset with ir := 0xF309 } : State).ir ≠ packXKK 0xF x 0x08 := by decide

/-- GetSoundTimerFollowsItsParameter, its first and last clauses. -/
theorem witness_soundSelector : ({ hwConfig with getSoundSel := some 0x08 } : Config).wf = true ∧
    ({ State.reset with ir := 0xF308 } : State).ir = packXKK 0xF 3 0x08 ∧ hwConfig.getSoundSel = none := by decide

/-- BcdStoresThreeDigits, the last base in range. -/
theorem witness_bcdInRange : (State.reset.setI 0xFFD).i.toNat + 2 ≤ 4095 := by decide

/-- BlockStoreWritesRegistersZeroToX, BlockLoadReadsRegistersZeroToX: sixteen registers at the top of memory. -/
theorem witness_blockInRange : (State.reset.setI 0xFF0).i.toNat + (15 : Nibble).toNat ≤ 4095 := by decide

/-- BlockLoadRestoresBlockStore. -/
theorem witness_blockRestore : (State.reset.setI 0xFF0).i.toNat + (15 : Nibble).toNat ≤ 4095 ∧ ((with1 3 9).setI 0xFF0).i = (State.reset.setI 0xFF0).i := by decide

/-- StoreIsSeenByTheNextFetch. -/
theorem witness_storeThenFetch : (State.reset.setI 0x206).i.toNat + (1 : Nibble).toNat ≤ 4095 ∧ (1 : Nibble).toNat = (0 : Nibble).toNat + 1 ∧
    (1 : Nibble).toNat ≤ (1 : Nibble).toNat ∧ (0x206 : Word).toNat = (State.reset.setI 0x206).i.toNat + (0 : Nibble).toNat := by decide

/-- OutOfBoundsRaisesAndWritesNothing: each instruction at its boundary. -/
theorem witness_outOfBounds : (0 < (2 : Nibble).toNat ∧ 4095 < (State.reset.setI 0xFFF).i.toNat + (2 : Nibble).toNat - 1) ∧
    4095 < (State.reset.setI 0xFFE).i.toNat + 2 ∧ 4095 < (State.reset.setI 0xFFF).i.toNat + (1 : Nibble).toNat := by decide

/-- EveryInstructionWritesOnlyItsOwnParts. -/
theorem witness_writesOnly : ∃ t, exec (.ldByte 1 2) State.reset = .next t := ⟨_, rfl⟩

/-- InputsReachOnlyTheirInstructions: every input is admitted for an instruction that reads none. -/
theorem witness_inputs : readsKeys (.addReg 1 2) = false ∧ (∀ x kk, Instr.addReg 1 2 ≠ .rnd x kk) := ⟨rfl, nofun⟩

/-- SoundTimerInfluencesNothing. -/
theorem witness_soundTimer : ∀ x, Instr.ldDtVx 1 ≠ .ldStVx x := nofun

/-- The five step invariants, StepAlwaysAnswersANextState and DriverRunKeepsEveryInvariant. -/
theorem witness_stepInvariants : MemoriesWf live ∧ CellsBinary live ∧ StackBounded live ∧ PcLow live ∧ StatusLegal live ∧ StackEntriesLow live ∧
    ∃ t, step live = .next t := ⟨⟨by decide, rfl⟩, fun _ => .inl rfl, by simp [StackBounded, live, at', State.withFetchWord, State.reset], by simp [PcLow, live, at', State.withFetchWord], .inl ⟨rfl, rfl⟩, fun _ _ hj => absurd hj (Nat.not_lt_zero _), _, rfl⟩

/-- DriverRunKeepsEveryInvariant. -/
theorem witness_driverRun : ∃ t, driverRun live [.tick, .reset] = .next t := ⟨_, rfl⟩

/-- A CORE whose first Cycle after Reset halted it. -/
def fallen : State := raise .stackUnderflow (beginCycle State.reset)

/-- OnlyResetLeavesTheHalt: a run without a load. -/
theorem witness_haltRun : fallen.halt = true ∧ fallen.env.phase = .running ∧ DriverOp.reset ∉ [DriverOp.tick, DriverOp.tick] ∧
    ∃ t, driverRun fallen [.tick, .tick] = .next t := ⟨rfl, rfl, by decide, _, rfl⟩

/-- Its clause on a load. -/
theorem witness_haltLoad : DriverOp.reset ∉ [DriverOp.tick, DriverOp.load 0 [1]] ∧ DriverOp.load 0 [1] ∈ [DriverOp.tick, DriverOp.load 0 [1]] := by decide

/-- HaltedRunning, a part of MachineInv, on a halted and on a running CORE. -/
theorem witness_haltedRunning : HaltedRunning fallen ∧ HaltedRunning live := ⟨fun _ => rfl, nofun⟩

/-- SelfJumpIsFinal. -/
theorem witness_selfJump : Booted (at' 0x1200 State.reset) ∧ EndedNormally (at' 0x1200 State.reset) := ⟨nofun, rfl, by decide, 0x200, by decide, by decide⟩

end Sys2Proof.Machine.Tests
end

/-! # The stack operations, case by case (spec/41_control_flow.md R131, R133; log entry 8) -/

namespace Sys2Proof.Machine

theorem callTo_free {s : State} (target : Word) (h : s.sp.toNat < stackDepth) :
    callTo target s = .next ((pushPc s h).setPc target) := dif_pos h

theorem callTo_full {s : State} (target : Word) (h : s.sp.toNat = stackDepth) :
    callTo target s = .next (raise .stackOverflow s) := by
  rw [callTo, dif_neg (by omega), if_pos h]

theorem callTo_above {s : State} (target : Word) (h : stackDepth < s.sp.toNat) :
    callTo target s = .fault .noStackEntry := by
  rw [callTo, dif_neg (by omega), if_neg (by omega)]

theorem returnFrom_empty {s : State} (h : s.sp.toNat = 0) : returnFrom s = .next (raise .stackUnderflow s) := if_pos h

theorem returnFrom_valid {s : State} (hpos : 0 < s.sp.toNat) (h : s.sp.toNat - 1 < stackDepth) :
    returnFrom s = .next { s with sp := s.sp - 1, pc := s.stkAt (s.sp.toNat - 1) h } := by
  rw [returnFrom, if_neg (by omega), dif_pos h]

theorem returnFrom_above {s : State} (h : stackDepth < s.sp.toNat) : returnFrom s = .fault .noStackEntry := by
  rw [returnFrom, if_neg (by omega), dif_neg (by omega)]

/-! # What the Execute stage can do, and the invariants it keeps (spec/00_scope.md R8) -/

/-- Everything the Execute stage can make of the state `s` that Fetch left: one constructor per kind of write. An
invariant of the machine is kept by each kind, and `exec_effect` says there is no other. -/
inductive ExecEffect (s : State) : State → Prop where
  /-- General registers, `I` and the timers: what most instructions write. -/
  | data (regs : Vector Byte 16) (i : Word) (dt st : Byte) :
      ExecEffect s { s with regs := regs, i := i, dt := dt, st := st }
  /-- JP and JP V0 (R132, R138). -/
  | jump (target : Word) (low : target.toNat ≤ 0x10FE) : ExecEffect s (s.setPc target)
  /-- A skip whose condition holds (R134 to R137, R181, R182). -/
  | skip : ExecEffect s (s.setPc (s.pc + 2))
  /-- The key wait with no key pressed (R184). -/
  | wait : ExecEffect s (s.setPc (s.pc - 2))
  /-- CALL with a free entry (R133). -/
  | push (nnn : Addr) (free : s.sp.toNat < stackDepth) : ExecEffect s ((pushPc s free).setPc nnn.toWord)
  /-- RET with a valid entry (R131). -/
  | pop (pos : 0 < s.sp.toNat) (bound : s.sp.toNat - 1 < stackDepth) :
      ExecEffect s { s with sp := s.sp - 1, pc := s.stkAt (s.sp.toNat - 1) bound }
  /-- Bytes stored in range (R189, R190). -/
  | store (base : Nat) (bytes : List Byte) (range : inRange base bytes.length = true) :
      ExecEffect s (s.setMem (storeBytes s.mem base bytes))
  /-- CLS (R130). -/
  | clear : ExecEffect s (s.setDisp [])
  /-- DRW past its bounds test (R180). -/
  | draw (x y n : Nibble) : ExecEffect s (drawSprite hwConfig x y n s)
  /-- A fatal error (R218). -/
  | fatal (e : ErrKind) (kind : e ≠ .unknownInstruction) : ExecEffect s (raise e s)
  /-- A word outside the opcode table (R114). -/
  | report : ExecEffect s (reportUnknown s)

/-! ## Every instruction has one of these effects -/

theorem ExecEffect.of_next {s t u : State} (hu : ExecEffect s u)
    (h : (Host.Outcome.next u : Answer) = .next t) : ExecEffect s t := by
  cases h; exact hu

theorem skipIf_effect (c : Bool) (s : State) : ExecEffect s (skipIf c s) := by
  cases c with
  | false => exact .data s.regs s.i s.dt s.st
  | true => exact .skip

theorem callTo_effect {nnn : Addr} {s t : State} (h : callTo nnn.toWord s = .next t) : ExecEffect s t := by
  obtain ⟨hfree, rfl⟩ | ⟨-, rfl⟩ := callTo_cases h
  · exact .push nnn hfree
  · exact .fatal _ nofun

theorem returnFrom_effect {s t : State} (h : returnFrom s = .next t) : ExecEffect s t := by
  obtain ⟨-, rfl⟩ | ⟨hpos, hbound, rfl⟩ := returnFrom_cases h
  · exact .fatal _ nofun
  · exact .pop hpos hbound

theorem guarded_effect {base len : Nat} {s done t : State} (hdone : inRange base len = true → ExecEffect s done)
    (h : guarded base len s done = .next t) : ExecEffect s t := by
  obtain ⟨hrange, rfl⟩ | ⟨-, rfl⟩ := guarded_cases h
  · exact hdone hrange
  · exact .fatal _ nofun

theorem loadBlock_effect (s : State) (base k : Nat) : ExecEffect s (loadBlock s base k) := by
  obtain ⟨rs, h⟩ := loadBlock_rest s base k
  rw [h]
  exact .data rs s.i s.dt s.st

@[simp] theorem toNat_addrToWord (nnn : Addr) : nnn.toWord.toNat = nnn.toNat :=
  BitVec.toNat_setWidth_of_le (by decide)

@[simp] theorem toNat_byteToWord (b : Byte) : b.toWord.toNat = b.toNat :=
  BitVec.toNat_setWidth_of_le (by decide)

/-- The target of JP V0 is an unwrapped sum, at most 0x10FE (R138). -/
theorem toNat_jpV0_target (nnn : Addr) (b : Byte) : (nnn.toWord + b.toWord).toNat = nnn.toNat + b.toNat := by
  rw [BitVec.toNat_add, toNat_addrToWord, toNat_byteToWord]
  omega

theorem exec_effect {i : Instr} {s t : State} (h : exec i s = .next t) : ExecEffect s t := by
  cases i with
  | cls => exact .of_next .clear h
  | ret => exact returnFrom_effect h
  | call nnn => exact callTo_effect h
  | jp nnn => exact .of_next (.jump nnn.toWord (by rw [toNat_addrToWord]; omega)) h
  | jpV0 nnn =>
    exact .of_next (.jump (nnn.toWord + (s.v 0).toWord) (by rw [toNat_jpV0_target]; omega)) h
  | seByte | sneByte | seReg | sneReg | skp | sknp => exact .of_next (skipIf_effect _ s) h
  | ldVxK x =>
    refine .of_next ?_ h
    split
    · exact .wait
    · exact .data _ _ _ _
  | ldByte | addByte | ldReg | orReg | andReg | xorReg | rnd => exact .of_next (.data _ s.i s.dt s.st) h
  | addReg | subReg | shr | subnReg | shl => exact .of_next (.data _ s.i s.dt s.st) h
  | ldVxDt => exact .of_next (.data _ s.i s.dt s.st) h
  | ldDtVx => exact .of_next (.data s.regs s.i _ s.st) h
  | ldStVx => exact .of_next (.data s.regs s.i s.dt _) h
  | ldI | addI | ldF => exact .of_next (.data s.regs _ s.dt s.st) h
  | drw x y n => exact guarded_effect (fun _ => .draw x y n) h
  | ldB x => exact guarded_effect (fun hr => .store (indexBase s) (decimalDigits (s.v x)) hr) h
  | ldMemVx x =>
    exact guarded_effect (fun hr => .store (indexBase s) (blockValues s x) (by rwa [blockValues_length])) h
  | ldVxMem x => exact guarded_effect (fun _ => loadBlock_effect s (indexBase s) x.toNat) h

/-- Everything a step can do: nothing, a failed fetch, or one effect of the Execute stage on the fetched state. -/
theorem step_effect {s t : State} (h : step s = .next t) :
    t = s ∨ t = raise .outOfBoundsAccess (beginCycle s) ∨
      (s.pc.toNat + 1 < memSize ∧ ExecEffect (fetched s) t) := by
  obtain ⟨-, rfl⟩ | ⟨-, -, rfl⟩ | ⟨-, hpc, i, -, hexec⟩ | ⟨-, hpc, e, -, hundec⟩ := step_cases h
  · exact .inl rfl
  · exact .inr (.inl rfl)
  · exact .inr (.inr ⟨hpc, exec_effect hexec⟩)
  · exact .inr (.inr ⟨hpc, .of_next .report hundec⟩)

theorem fetched_pc_toNat {s : State} (h : s.pc.toNat + 1 < memSize) : (fetched s).pc.toNat = s.pc.toNat + 2 := by
  have hlt : s.pc.toNat + 1 < 4096 := h
  exact BitVec.toNat_add_of_lt (x := s.pc) (y := 2) (show s.pc.toNat + 2 < 65536 by omega)

/-! ## Memories in canonical form, display cells binary -/

theorem wf_storeBytes_of_inRange {m : Memory} {base : Nat} {bytes : List Byte} (hm : Memory.wf memSize m = true)
    (hr : inRange base bytes.length = true) : Memory.wf memSize (storeBytes m base bytes) = true := by
  obtain hlen | hle := (inRange_iff base bytes.length).mp hr
  · rw [List.length_eq_zero_iff.mp hlen]; exact hm
  · exact Memory.wf_storeBytes bytes hm hle

theorem drawSprite_disp_wf (x y n : Nibble) {s : State} (h : Memory.wf hwConfig.dispSize s.disp = true) :
    Memory.wf hwConfig.dispSize (drawSprite hwConfig x y n s).disp = true :=
  drawFold_wf s.env.cycle _ h fun _ ha => spritePixels_lt (by decide) (by decide) ha

theorem togglePixel_binary_get (n : Nat) {d : Memory × Bool} (adr : Nat)
    (h : ∀ a, d.1.get a = 0x00 ∨ d.1.get a = 0x01) (a : Nat) :
    (togglePixel n d adr).1.get a = 0x00 ∨ (togglePixel n d adr).1.get a = 0x01 := by
  rw [togglePixel_binary n (h adr), Memory.get_set]
  split
  · obtain hz | ho := h adr
    · exact .inr (by rw [hz]; rfl)
    · exact .inl (by rw [ho]; rfl)
  · exact h a

theorem drawFold_binary (n : Nat) (adrs : List Nat) {d : Memory × Bool}
    (h : ∀ a, d.1.get a = 0x00 ∨ d.1.get a = 0x01) (a : Nat) :
    (adrs.foldl (togglePixel n) d).1.get a = 0x00 ∨ (adrs.foldl (togglePixel n) d).1.get a = 0x01 := by
  induction adrs generalizing d with
  | nil => exact h a
  | cons b adrs ih => exact ih (togglePixel_binary_get n b h)

theorem drawSprite_cellsBinary (x y n : Nibble) {s : State} (h : CellsBinary s) :
    CellsBinary (drawSprite hwConfig x y n s) :=
  drawFold_binary s.env.cycle _ h

theorem ExecEffect.memoriesWf {s t : State} (h : ExecEffect s t) (hs : MemoriesWf s) : MemoriesWf t := by
  obtain ⟨hmem, hdisp⟩ := hs
  cases h with
  | store base bytes hr => exact ⟨wf_storeBytes_of_inRange hmem hr, hdisp⟩
  | clear => exact ⟨hmem, rfl⟩
  | draw x y n => exact ⟨hmem, drawSprite_disp_wf x y n hdisp⟩
  | data | jump | skip | wait | push | pop | fatal | report => exact ⟨hmem, hdisp⟩

theorem step_keeps_memoriesWf {s t : State} (hs : MemoriesWf s) (h : step s = .next t) : MemoriesWf t := by
  obtain rfl | rfl | ⟨-, heff⟩ := step_effect h
  · exact hs
  · exact hs
  · exact heff.memoriesWf hs

theorem ExecEffect.cellsBinary {s t : State} (h : ExecEffect s t) (hs : CellsBinary s) : CellsBinary t := by
  cases h with
  | clear => exact fun _ => .inl rfl
  | draw x y n => exact drawSprite_cellsBinary x y n hs
  | data | jump | skip | wait | push | pop | store | fatal | report => exact hs

theorem step_keeps_cellsBinary {s t : State} (hs : CellsBinary s) (h : step s = .next t) : CellsBinary t := by
  obtain rfl | rfl | ⟨-, heff⟩ := step_effect h
  · exact hs
  · exact hs
  · exact heff.cellsBinary hs

/-! ## The stack and `pc` -/

theorem pushPc_sp_toNat {s : State} (h : s.sp.toNat < stackDepth) : (pushPc s h).sp.toNat = s.sp.toNat + 1 := by
  have hlt : s.sp.toNat < 16 := h
  exact BitVec.toNat_add_of_lt (x := s.sp) (y := 1) (show s.sp.toNat + 1 < 256 by omega)

theorem pushPc_stkAt {s : State} (h : s.sp.toNat < stackDepth) (j : Nat) (hj : j < stackDepth) :
    (pushPc s h).stkAt j hj = if j = s.sp.toNat then s.pc else s.stkAt j hj := by
  simp [pushPc, State.stkAt, Vector.getElem_set, eq_comm]

theorem pop_sp_toNat {s : State} (h : 0 < s.sp.toNat) : (s.sp - 1).toNat = s.sp.toNat - 1 := by
  exact BitVec.toNat_sub_of_le (x := s.sp) (y := 1) (BitVec.le_def.mpr h)

theorem ExecEffect.stackBounded {s t : State} (h : ExecEffect s t) (hs : StackBounded s) : StackBounded t := by
  cases h with
  | push nnn hfree =>
    change (pushPc s hfree).sp.toNat ≤ stackDepth
    rw [pushPc_sp_toNat]
    exact hfree
  | pop hpos hbound =>
    change (s.sp - 1).toNat ≤ stackDepth
    rw [pop_sp_toNat hpos]
    exact hbound.le
  | data | jump | skip | wait | store | clear | draw | fatal | report => exact hs

theorem step_keeps_stackBounded {s t : State} (hs : StackBounded s) (h : step s = .next t) : StackBounded t := by
  obtain rfl | rfl | ⟨-, heff⟩ := step_effect h
  · exact hs
  · exact hs
  · exact heff.stackBounded hs

/-- CALL pushes the advanced `pc`, so it must be at most 4096. -/
theorem ExecEffect.stackEntriesLow {s t : State} (h : ExecEffect s t) (hpc : s.pc.toNat ≤ memSize)
    (hs : StackEntriesLow s) : StackEntriesLow t := by
  cases h with
  | push nnn hfree =>
    intro j hj hlt
    change (pushPc s hfree |>.stkAt j hj).toNat ≤ memSize
    replace hlt : j < s.sp.toNat + 1 := by rw [← pushPc_sp_toNat hfree]; exact hlt
    rw [pushPc_stkAt]
    split
    · exact hpc
    · exact hs j hj (by omega)
  | pop hpos hbound =>
    intro j hj hlt
    replace hlt : j < s.sp.toNat - 1 := by rw [← pop_sp_toNat hpos]; exact hlt
    exact hs j hj (by omega)
  | data | jump | skip | wait | store | clear | draw | fatal | report => exact hs

theorem step_keeps_stackEntriesLow {s t : State} (hs : StackEntriesLow s) (h : step s = .next t) :
    StackEntriesLow t := by
  obtain rfl | rfl | ⟨hpc, heff⟩ := step_effect h
  · exact hs
  · exact hs
  · exact heff.stackEntriesLow (by rw [fetched_pc_toNat hpc]; omega) hs

/-- The fetched `pc` lies in 2 to 4096, so neither a skip nor a key wait wraps. -/
theorem ExecEffect.pcLow {s t : State} (h : ExecEffect s t) (hlo : 2 ≤ s.pc.toNat) (hhi : s.pc.toNat ≤ memSize)
    (hs : StackEntriesLow s) : PcLow t := by
  have hpc : s.pc.toNat ≤ 0x10FE := hhi.trans (by decide)
  cases h with
  | jump target hlow => exact hlow
  | skip =>
    have hle : s.pc.toNat ≤ 4096 := hhi
    have hadd : (s.pc + 2).toNat = s.pc.toNat + 2 := BitVec.toNat_add_of_lt (show s.pc.toNat + 2 < 65536 by omega)
    change (s.pc + 2).toNat ≤ 0x10FE
    omega
  | wait =>
    have hsub : (s.pc - 2).toNat = s.pc.toNat - 2 := BitVec.toNat_sub_of_le (BitVec.le_def.mpr hlo)
    change (s.pc - 2).toNat ≤ 0x10FE
    omega
  | push nnn hfree =>
    change nnn.toWord.toNat ≤ 0x10FE
    rw [toNat_addrToWord]
    omega
  | pop hpos hbound => exact (hs _ hbound (by omega)).trans (by decide)
  | data | store | clear | draw | fatal | report => exact hpc

theorem step_keeps_pcLow {s t : State} (hstk : StackEntriesLow s) (hs : PcLow s) (h : step s = .next t) :
    PcLow t := by
  obtain rfl | rfl | ⟨hpc, heff⟩ := step_effect h
  · exact hs
  · exact hs
  · have hadv := fetched_pc_toNat hpc
    exact heff.pcLow (by omega) (by omega) hstk

/-! ## The status and the phase -/

theorem raise_statusLegal {e : ErrKind} (he : e ≠ .unknownInstruction) (s : State) : StatusLegal (raise e s) := by
  refine .inr ⟨rfl, ?_⟩
  cases e with
  | unknownInstruction => exact absurd rfl he
  | stackOverflow => exact .inl rfl
  | stackUnderflow => exact .inr (.inl rfl)
  | outOfBoundsAccess => exact .inr (.inr rfl)

theorem ExecEffect.statusLegal {s t : State} (h : ExecEffect s t) (hs : StatusLegal s) : StatusLegal t := by
  cases h with
  | fatal e he => exact raise_statusLegal he s
  | data | jump | skip | wait | push | pop | store | clear | draw | report => exact hs

theorem step_keeps_statusLegal {s t : State} (hs : StatusLegal s) (h : step s = .next t) : StatusLegal t := by
  obtain rfl | rfl | ⟨-, heff⟩ := step_effect h
  · exact hs
  · exact raise_statusLegal (e := .outOfBoundsAccess) nofun _
  · exact heff.statusLegal hs

theorem ExecEffect.phase {s t : State} (h : ExecEffect s t) : t.env.phase = s.env.phase := by
  cases h <;> rfl

theorem step_keeps_haltedRunning {s t : State} (hs : HaltedRunning s) (h : step s = .next t) : HaltedRunning t := by
  obtain rfl | rfl | ⟨-, heff⟩ := step_effect h
  · exact hs
  · exact fun _ => rfl
  · exact fun _ => heff.phase

theorem step_keeps_machineInv {s t : State} (hs : MachineInv s) (h : step s = .next t) : MachineInv t := by
  obtain ⟨hmem, hcells, hsp, hstk, hpc, hstatus, hhalt⟩ := hs
  exact ⟨step_keeps_memoriesWf hmem h, step_keeps_cellsBinary hcells h, step_keeps_stackBounded hsp h,
    step_keeps_stackEntriesLow hstk h, step_keeps_pcLow hstk hpc h, step_keeps_statusLegal hstatus h,
    step_keeps_haltedRunning hhalt h⟩

/-! ## The host's operations and their runs -/

/-- Everything a host operation can do when it answers a next state. A Cycle is a step, of `s` or of `s` with its
inputs presented. -/
theorem driverStep_cases {op : DriverOp} {s t : State} (h : driverStep op s = .next t) :
    (op = .reset ∧ t = resetCore s) ∨
      (∃ p u, op = .cycle p ∧ (u = s ∨ u = presentPins p s) ∧ step u = .next t) ∨
      (op = .tick ∧ t = tickTimers s) ∨
      (∃ base bytes, op = .load base bytes ∧ s.env.phase ≠ .running ∧ inRange base bytes.length = true ∧
        t = s.setMem (storeBytes s.mem base bytes)) := by
  cases op with
  | reset => cases h; exact .inl ⟨rfl, rfl⟩
  | cycle p =>
    refine .inr (.inl ⟨p, ?_⟩)
    change driverCycle p s = _ at h
    unfold driverCycle at h
    split at h
    · exact ⟨s, rfl, .inl rfl, h⟩
    · exact ⟨_, rfl, .inr rfl, h⟩
  | tick =>
    refine .inr (.inr (.inl ⟨rfl, ?_⟩))
    change driverTick s = _ at h
    unfold driverTick at h
    split at h
    · cases h
    · cases h; rfl
  | load base bytes =>
    refine .inr (.inr (.inr ⟨base, bytes, rfl, ?_⟩))
    change driverLoad base bytes s = _ at h
    unfold driverLoad at h
    split at h
    · cases h
    · next hphase =>
      split at h
      · next hr => cases h; exact ⟨hphase, hr, rfl⟩
      · cases h

/-- What every host operation keeps, every run keeps (R8). -/
theorem driverRun_keeps {P : State → Prop}
    (hop : ∀ {op : DriverOp} {s t : State}, P s → driverStep op s = .next t → P t)
    (ops : List DriverOp) {s t : State} (hs : P s) (h : driverRun s ops = .next t) : P t := by
  induction ops generalizing s with
  | nil => cases h; exact hs
  | cons op ops ih =>
    unfold driverRun at h
    split at h
    · next u hu => exact ih (hop hs hu) h
    · cases h
    · cases h

theorem resetCore_machineInv {s : State} (hmem : MemoriesWf s) (hcells : CellsBinary s) :
    MachineInv (resetCore s) :=
  ⟨hmem, hcells, Nat.zero_le _, fun _ _ hlt => absurd hlt (Nat.not_lt_zero _), show 0x0200 ≤ 0x10FE by decide,
    .inl ⟨rfl, rfl⟩, nofun⟩

theorem driverStep_keeps_machineInv {op : DriverOp} {s t : State} (hs : MachineInv s)
    (h : driverStep op s = .next t) : MachineInv t := by
  obtain ⟨-, rfl⟩ | ⟨p, u, -, hu, hstep⟩ | ⟨-, rfl⟩ | ⟨base, bytes, -, -, hr, rfl⟩ := driverStep_cases h
  · obtain ⟨hmem, hcells, -⟩ := hs
    exact resetCore_machineInv hmem hcells
  · obtain rfl | rfl := hu
    · exact step_keeps_machineInv hs hstep
    · exact step_keeps_machineInv (s := presentPins p s) hs hstep
  · exact hs
  · obtain ⟨⟨hmem, hdisp⟩, hrest⟩ := hs
    exact ⟨⟨wf_storeBytes_of_inRange hmem hr, hdisp⟩, hrest⟩

/-- Settles O57: every host operation keeps the invariants together, a Cycle because each effect of the Execute
stage does; induction over the run. -/
theorem driverRunKeepsEveryInvariant : Obligations.DriverRunKeepsEveryInvariant :=
  fun ops _ _ hs h => driverRun_keeps driverStep_keeps_machineInv ops hs h

/-! # The inputs of a Cycle (spec/00_scope.md R11, R12) -/

/-- A Cycle requested with inputs `p`, where its word decodes to `i`, is `i` on the fetched state of `p` presented. -/
theorem driverCycle_decoded {s : State} {p : Pins} {i : Instr} (hb : Booted s) (hh : s.halt = false)
    (hpc : s.pc.toNat + 1 < memSize) (hd : decode (fetchWord s) = .ok i) :
    driverStep (.cycle p) s = exec i (fetched (presentPins p s)) := by
  have hlive : driverStep (.cycle p) s = step (presentPins p s) := by simp [driverStep, driverCycle, hh]
  have hword : decode (fetchWord (presentPins p s)) = .ok i := hd
  rw [hlive, step_fetched (s := presentPins p s) hb hh hpc, hword]

/-- The Execute stage sees the state before the Cycle but for `pc`, IR and the host's side. -/
theorem frame_fetched_presentPins (p : Pins) (s : State) :
    Frame [] [.pc, .ir, .env] s (fetched (presentPins p s)) := by
  refine ⟨fun _ _ => rfl, fun part hpart => ?_⟩
  cases part with
  | pc | ir | env => simp at hpart
  | i | dt | st | sp | stk => rfl
  | status => exact ⟨rfl, rfl⟩
  | mem | disp => exact fun _ => rfl

/-- Settles O8: the Cycle runs `i` on the state Fetch leaves once `p` is presented and driven. -/
theorem cycleRunsWithTheInputsPresented : Obligations.CycleRunsWithTheInputsPresented := by
  intro s p i hb hh hpc hd
  have hpc' : s.pc.toNat + 1 < memSize := Nat.lt_succ_of_le hpc
  exact ⟨fetched (presentPins p s), driverCycle_decoded hb hh hpc' hd, rfl, rfl, rfl, rfl,
    fetched_pc_toNat (s := presentPins p s) hpc', frame_fetched_presentPins p s⟩

/-! ## Which instructions the inputs reach -/

/-- A skip whose condition is the same in both states. -/
theorem skipIf_withPins (p : Pins) (c : Bool) (s : State) : skipIf c (withPins p s) = withPins p (skipIf c s) := by
  cases c <;> rfl

theorem guarded_withPins (p : Pins) (base len : Nat) (s done : State) :
    guarded base len (withPins p s) (withPins p done) = mapAnswer (withPins p) (guarded base len s done) := by
  cases hr : inRange base len with
  | true => rw [guarded_ok hr, guarded_ok hr]; rfl
  | false => rw [guarded_out hr, guarded_out hr]; rfl

theorem callTo_withPins (p : Pins) (target : Word) (s : State) :
    callTo target (withPins p s) = mapAnswer (withPins p) (callTo target s) := by
  obtain hfree | hfull | habove := Nat.lt_trichotomy s.sp.toNat stackDepth
  · rw [callTo_free target hfree, callTo_free (s := withPins p s) target hfree]; rfl
  · rw [callTo_full target hfull, callTo_full (s := withPins p s) target hfull]; rfl
  · rw [callTo_above target habove, callTo_above (s := withPins p s) target habove]; rfl

theorem returnFrom_withPins (p : Pins) (s : State) :
    returnFrom (withPins p s) = mapAnswer (withPins p) (returnFrom s) := by
  obtain hempty | hpos := Nat.eq_zero_or_pos s.sp.toNat
  · rw [returnFrom_empty hempty, returnFrom_empty (s := withPins p s) hempty]; rfl
  · by_cases hbound : s.sp.toNat - 1 < stackDepth
    · rw [returnFrom_valid hpos hbound, returnFrom_valid (s := withPins p s) hpos hbound]; rfl
    · have habove : stackDepth < s.sp.toNat := by omega
      rw [returnFrom_above habove, returnFrom_above (s := withPins p s) habove]; rfl

theorem loadBlock_withPins (p : Pins) (s : State) (base k : Nat) :
    loadBlock (withPins p s) base k = withPins p (loadBlock s base k) := by
  induction k with
  | zero => rfl
  | succ k ih => rw [loadBlock, ih]; rfl

/-- SKP, given the same keypad (R181). -/
theorem execSkp_withPins {p : Pins} {s : State} (hk : p.keys = s.env.pins.keys) (x : Nibble) :
    execSkp x (withPins p s) = mapAnswer (withPins p) (execSkp x s) := by
  change Host.Outcome.next (skipIf (keyPressed p.keys _) (withPins p s)) = _
  rw [hk, skipIf_withPins]
  rfl

/-- SKNP, given the same keypad (R182). -/
theorem execSknp_withPins {p : Pins} {s : State} (hk : p.keys = s.env.pins.keys) (x : Nibble) :
    execSknp x (withPins p s) = mapAnswer (withPins p) (execSknp x s) := by
  change Host.Outcome.next (skipIf (!keyPressed p.keys _) (withPins p s)) = _
  rw [hk, skipIf_withPins]
  rfl

/-- LD Vx, K, given the same keypad (R184). -/
theorem execLdVxK_withPins {p : Pins} {s : State} (hk : p.keys = s.env.pins.keys) (x : Nibble) :
    execLdVxK x (withPins p s) = mapAnswer (withPins p) (execLdVxK x s) := by
  change Host.Outcome.next (if p.keys = 0x0000 then _ else State.setV _ x (lowestKey p.keys).toByte) = _
  unfold execLdVxK
  rw [hk]
  split <;> rfl

/-- RND, given the same random byte (R162). -/
theorem execRnd_withPins {p : Pins} {s : State} (hr : p.rand = s.env.pins.rand) (x : Nibble) (kk : Byte) :
    execRnd x kk (withPins p s) = mapAnswer (withPins p) (execRnd x kk s) := by
  change Host.Outcome.next ((withPins p s).setV x (p.rand &&& kk)) = _
  rw [hr]
  rfl

/-- Settles O51: the four readers of an input by their premise, every other instruction because its operation
commutes with a change of the inputs. -/
theorem inputsReachOnlyTheirInstructions : Obligations.InputsReachOnlyTheirInstructions := by
  intro i s p hkeys hrand
  cases i with
  | rnd x kk => exact execRnd_withPins (hrand ⟨x, kk, rfl⟩) x kk
  | skp x => exact execSkp_withPins (hkeys rfl) x
  | sknp x => exact execSknp_withPins (hkeys rfl) x
  | ldVxK x => exact execLdVxK_withPins (hkeys rfl) x
  | call nnn => exact callTo_withPins p nnn.toWord s
  | ret => exact returnFrom_withPins p s
  | seByte | sneByte | seReg | sneReg => exact congrArg Host.Outcome.next (skipIf_withPins p _ s)
  | drw x y n => exact guarded_withPins p _ _ s (drawSprite hwConfig x y n s)
  | ldB x => exact guarded_withPins p _ _ s (s.setMem (storeBytes s.mem (indexBase s) (decimalDigits (s.v x))))
  | ldMemVx x => exact guarded_withPins p _ _ s (s.setMem (storeBytes s.mem (indexBase s) (blockValues s x)))
  | ldVxMem x =>
    change guarded _ _ (withPins p s) (loadBlock (withPins p s) (indexBase s) x.toNat) = _
    rw [loadBlock_withPins]
    exact guarded_withPins p _ _ s _
  | cls | jp | jpV0 | ldByte | addByte | ldReg | orReg | andReg | xorReg | addReg | subReg | shr | subnReg | shl => rfl
  | ldI | addI | ldF | ldVxDt | ldDtVx | ldStVx => rfl

end Sys2Proof.Machine


/-! # The bounds of the stack and of `pc`, the legal status (spec/10_state.md R23, R27, R29) -/

namespace Sys2Proof.Machine

/-- Settles O55: the three bounds, each by its step lemma. RET's bound on `pc` rests on the low stack entries, so
the three are kept together. -/
theorem stepKeepsStackAndPcBounds : Obligations.StepKeepsStackAndPcBounds :=
  fun _ _ hsp hstk hpc h =>
    ⟨step_keeps_stackBounded hsp h, step_keeps_stackEntriesLow hstk h, step_keeps_pcLow hstk hpc h⟩

/-- Settles O56: only a fatal error writes HALT and ERR, and it writes both. -/
theorem stepKeepsStatusLegal : Obligations.StepKeepsStatusLegal :=
  fun _ _ hs h => step_keeps_statusLegal hs h

/-! # What the flag writers leave in VF (spec/10_state.md R21) -/

/-- `VF` holds exactly 0x00 or 0x01. -/
def FlagIsBit (s : State) : Prop := s.v 15 = 0x00 ∨ s.v 15 = 0x01

/-- The write of VF comes last, so it holds the flag whatever was written before (R163, R180). -/
theorem setV_vf_flagIsBit (f : Bool) (s : State) : FlagIsBit (s.setV vf (flagByte f)) := by
  have hvf : (s.setV vf (flagByte f)).v 15 = flagByte f := State.v_setV_self s vf _
  unfold FlagIsBit
  rw [hvf]
  exact flagByte_cases f

/-- A DRW with no row, or whose last row is at most at address 4095, passes its bounds test (R180). -/
theorem inRange_rows {base : Nat} {n : Nibble} (h : n = 0 ∨ base + n.toNat ≤ 4096) : inRange base n.toNat = true :=
  (inRange_iff base n.toNat).mpr (h.imp_left fun hn => by rw [hn]; rfl)

theorem inRange_rows_above {base : Nat} {n : Nibble} (hpos : 0 < n.toNat) (h : 4096 < base + n.toNat) :
    inRange base n.toNat = false := by
  have hnot : ¬ (n.toNat = 0 ∨ base + n.toNat ≤ 4096) := by omega
  exact decide_eq_false hnot

/-- Settles O31: every flag writer ends with the write of the flag to VF, and a DRW out of range raises instead. -/
theorem flagWritersLeaveVfZeroOrOne : Obligations.FlagWritersLeaveVfZeroOrOne := by
  intro i s hi
  constructor
  · intro hrows
    cases i with
    | addReg | subReg | shr | subnReg | shl => exact ⟨_, rfl, setV_vf_flagIsBit _ _, rfl, rfl⟩
    | drw x y n =>
      have hr : inRange (indexBase s) n.toNat = true := inRange_rows (hrows x y n rfl)
      exact ⟨_, guarded_ok hr s _, setV_vf_flagIsBit _ _, rfl, rfl⟩
    | _ => cases hi
  · rintro x y n rfl hpos habove
    exact ⟨_, guarded_out (inRange_rows_above hpos habove) s _, rfl, rfl, rfl⟩

/-! # Frames of the state's updates (spec/10_state.md R31) -/

theorem Keeps.trans {s t u : State} {p : Part} (hst : Keeps s t p) (htu : Keeps t u p) : Keeps s u p := by
  cases p with
  | i | dt | st | pc | sp | stk | ir | env => exact Eq.trans htu hst
  | status => exact ⟨htu.1.trans hst.1, htu.2.trans hst.2⟩
  | mem | disp => exact fun a => (htu a).trans (hst a)

/-- What neither of two updates writes, both together leave unchanged. -/
theorem Frame.trans {rs rs' : List Nibble} {ps ps' : List Part} {s t u : State} (hst : Frame rs ps s t)
    (htu : Frame rs' ps' t u) : Frame (rs ++ rs') (ps ++ ps') s u := by
  obtain ⟨hreg, hpart⟩ := hst
  obtain ⟨hreg', hpart'⟩ := htu
  constructor
  · intro r hr
    rw [List.mem_append, not_or] at hr
    exact (hreg' r hr.2).trans (hreg r hr.1)
  · intro p hp
    rw [List.mem_append, not_or] at hp
    exact (hpart p hp.1).trans (hpart' p hp.2)

theorem Frame.mono {rs rs' : List Nibble} {ps ps' : List Part} {s t : State} (h : Frame rs ps s t) (hrs : rs ⊆ rs')
    (hps : ps ⊆ ps') : Frame rs' ps' s t :=
  ⟨fun r hr => h.1 r fun hmem => hr (hrs hmem), fun p hp => h.2 p fun hmem => hp (hps hmem)⟩

/-- No part holds the general registers. -/
theorem keeps_withRegs (s : State) (rs : Vector Byte 16) (p : Part) : Keeps s { s with regs := rs } p := by
  cases p <;> simp [Keeps]

theorem frame_setV (s : State) (x : Nibble) (b : Byte) : Frame [x] [] s (s.setV x b) :=
  ⟨fun _ hr => State.v_setV_ne s b (List.ne_of_not_mem_cons hr), fun p _ => keeps_withRegs s _ p⟩

theorem frame_setI (s : State) (w : Word) : Frame [] [.i] s (s.setI w) :=
  ⟨fun _ _ => rfl, fun p hp => by cases p <;> simp_all [Keeps]⟩

theorem frame_setDt (s : State) (b : Byte) : Frame [] [.dt] s (s.setDt b) :=
  ⟨fun _ _ => rfl, fun p hp => by cases p <;> simp_all [Keeps]⟩

theorem frame_setSt (s : State) (b : Byte) : Frame [] [.st] s (s.setSt b) :=
  ⟨fun _ _ => rfl, fun p hp => by cases p <;> simp_all [Keeps]⟩

theorem frame_setPc (s : State) (w : Word) : Frame [] [.pc] s (s.setPc w) :=
  ⟨fun _ _ => rfl, fun p hp => by cases p <;> simp_all [Keeps]⟩

theorem frame_setMem (s : State) (m : Memory) : Frame [] [.mem] s (s.setMem m) :=
  ⟨fun _ _ => rfl, fun p hp => by cases p <;> simp_all [Keeps]⟩

theorem frame_setDisp (s : State) (m : Memory) : Frame [] [.disp] s (s.setDisp m) :=
  ⟨fun _ _ => rfl, fun p hp => by cases p <;> simp_all [Keeps]⟩

theorem frame_raise (e : ErrKind) (s : State) : Frame [] [.status] s (raise e s) :=
  ⟨fun _ _ => rfl, fun p hp => by cases p <;> simp_all [Keeps]⟩

theorem frame_pushPc {s : State} (h : s.sp.toNat < stackDepth) : Frame [] [.sp, .stk] s (pushPc s h) :=
  ⟨fun _ _ => rfl, fun p hp => by cases p <;> simp_all [Keeps, pushPc]⟩

theorem frame_pop (s : State) (sp : Byte) (pc : Word) : Frame [] [.pc, .sp] s { s with sp := sp, pc := pc } :=
  ⟨fun _ _ => rfl, fun p hp => by cases p <;> simp_all [Keeps]⟩

/-! ## Frames of the shared operations -/

theorem frame_skipIf (c : Bool) (s : State) : Frame [] [.pc] s (skipIf c s) := by
  rw [skipIf_eq]
  exact frame_setPc s _

theorem frame_setResultFlag (x : Nibble) (b : Byte) (f : Bool) (s : State) :
    Frame [x, vf] [] s (setResultFlag x b f s) :=
  (frame_setV s x b).trans (frame_setV _ vf (flagByte f))

theorem frame_drawSprite (x y n : Nibble) (s : State) : Frame [vf] [.disp] s (drawSprite hwConfig x y n s) :=
  (frame_setDisp s _).trans (frame_setV _ vf _)

/-- An instruction with a bounds test writes what its effect writes, or raises. -/
theorem frame_guarded {rs : List Nibble} {ps : List Part} {base len : Nat} {s done t : State}
    (hdone : Frame rs ps s done) (h : guarded base len s done = .next t) : Frame rs (ps ++ [.status]) s t := by
  obtain ⟨-, rfl⟩ | ⟨-, rfl⟩ := guarded_cases h
  · exact hdone.mono (List.Subset.refl rs) (List.subset_append_left ps [.status])
  · exact (frame_raise _ s).mono (List.nil_subset rs) (List.subset_append_right ps [.status])

theorem frame_callTo {target : Word} {s t : State} (h : callTo target s = .next t) :
    Frame [] [.pc, .sp, .stk, .status] s t := by
  obtain ⟨hfree, rfl⟩ | ⟨-, rfl⟩ := callTo_cases h
  · exact ((frame_pushPc hfree).trans (frame_setPc _ target)).mono (List.Subset.refl _) (by decide)
  · exact (frame_raise _ s).mono (List.Subset.refl _) (by decide)

theorem frame_returnFrom {s t : State} (h : returnFrom s = .next t) : Frame [] [.pc, .sp, .status] s t := by
  obtain ⟨-, rfl⟩ | ⟨-, hbound, rfl⟩ := returnFrom_cases h
  · exact (frame_raise _ s).mono (List.Subset.refl _) (by decide)
  · exact (frame_pop s _ _).mono (List.Subset.refl _) (by decide)

/-- The register numbers 0 to `k` (R191). -/
def registersUpTo (k : Nat) : List Nibble := (List.range (k + 1)).map (BitVec.ofNat 4)

theorem mem_registersUpTo {k : Nat} (hk : k < 16) {r : Nibble} : r ∈ registersUpTo k ↔ r.toNat ≤ k := by
  simp only [registersUpTo, List.mem_map, List.mem_range]
  constructor
  · rintro ⟨j, hj, rfl⟩
    rw [BitVec.toNat_ofNat, Nat.mod_eq_of_lt (by omega)]
    omega
  · exact fun hr => ⟨r.toNat, by omega, BitVec.ofNat_toNat 4 r |>.trans (BitVec.setWidth_eq r)⟩

theorem frame_loadBlock (s : State) (base : Nat) {k : Nat} (hk : k < 16) :
    Frame (registersUpTo k) [] s (loadBlock s base k) := by
  constructor
  · intro r hr
    rw [mem_registersUpTo hk] at hr
    rw [loadBlock_v s base k hk r, if_neg hr]
  · intro p _
    obtain ⟨rs, hrest⟩ := loadBlock_rest s base k
    rw [hrest]
    exact keeps_withRegs s rs p

/-! ## The frame of every instruction -/

/-- From `s` to `t` only what the instruction's rule names is written (R31). -/
def WritesOnlyOwnParts (i : Instr) (s t : State) : Prop :=
  (∀ r, hasDestination i r = false → ¬ (r = 15 ∧ writesFlag i = true) → t.v r = s.v r) ∧
    ∀ p, p ∉ writesParts i → Keeps s t p

/-- A frame whose registers are destinations of the instruction, or VF of a flag writer, and whose parts are its own. -/
theorem Frame.writesOnlyOwnParts {rs : List Nibble} {ps : List Part} {i : Instr} {s t : State} (h : Frame rs ps s t)
    (hrs : ∀ r ∈ rs, hasDestination i r = true ∨ (r = 15 ∧ writesFlag i = true)) (hps : ps ⊆ writesParts i) :
    WritesOnlyOwnParts i s t := by
  obtain ⟨hreg, hpart⟩ := h
  refine ⟨fun r hdest hflag => hreg r fun hr => ?_, fun p hp => hpart p fun hmem => hp (hps hmem)⟩
  obtain hd | hf := hrs r hr
  · exact Bool.false_ne_true (hdest.symm.trans hd)
  · exact hflag hf

/-- An instruction that writes no general register. -/
theorem Frame.writesOnlyOwnParts_of_nil {ps : List Part} {i : Instr} {s t : State} (h : Frame [] ps s t)
    (hps : ps ⊆ writesParts i) : WritesOnlyOwnParts i s t :=
  h.writesOnlyOwnParts nofun hps

/-- An instruction with one destination and no other effect. -/
theorem setV_writesOnlyOwnParts {i : Instr} {x : Nibble} (hx : hasDestination i x = true) (s : State) (b : Byte) :
    WritesOnlyOwnParts i s (s.setV x b) :=
  (frame_setV s x b).writesOnlyOwnParts (fun _ hr => .inl (List.eq_of_mem_singleton hr ▸ hx)) (List.nil_subset _)

/-- A flag writer with the destination `x`: it writes `V[x]` and VF. -/
theorem setResultFlag_writesOnlyOwnParts {i : Instr} {x : Nibble} (hx : hasDestination i x = true)
    (hi : writesFlag i = true) (b : Byte) (f : Bool) (s : State) :
    WritesOnlyOwnParts i s (setResultFlag x b f s) := by
  refine (frame_setResultFlag x b f s).writesOnlyOwnParts (fun r hr => ?_) (List.nil_subset _)
  obtain rfl | hr := List.mem_cons.mp hr
  · exact .inl hx
  · exact .inr ⟨List.eq_of_mem_singleton hr, hi⟩

theorem WritesOnlyOwnParts.of_next {i : Instr} {s t u : State} (hu : WritesOnlyOwnParts i s u)
    (h : (Host.Outcome.next u : Answer) = .next t) : WritesOnlyOwnParts i s t := by
  cases h; exact hu

/-- Settles O50: each instruction by the frame of the operation it is. -/
theorem everyInstructionWritesOnlyItsOwnParts : Obligations.EveryInstructionWritesOnlyItsOwnParts := by
  intro i s t h
  change WritesOnlyOwnParts i s t
  cases i with
  | cls => exact .of_next ((frame_setDisp s _).writesOnlyOwnParts_of_nil (List.Subset.refl _)) h
  | ret => exact (frame_returnFrom h).writesOnlyOwnParts_of_nil (List.Subset.refl _)
  | call => exact (frame_callTo h).writesOnlyOwnParts_of_nil (List.Subset.refl _)
  | jp | jpV0 => exact .of_next ((frame_setPc s _).writesOnlyOwnParts_of_nil (List.Subset.refl _)) h
  | seByte | sneByte | seReg | sneReg | skp | sknp =>
    exact .of_next ((frame_skipIf _ s).writesOnlyOwnParts_of_nil (List.Subset.refl _)) h
  | ldI | addI | ldF => exact .of_next ((frame_setI s _).writesOnlyOwnParts_of_nil (List.Subset.refl _)) h
  | ldDtVx => exact .of_next ((frame_setDt s _).writesOnlyOwnParts_of_nil (List.Subset.refl _)) h
  | ldStVx => exact .of_next ((frame_setSt s _).writesOnlyOwnParts_of_nil (List.Subset.refl _)) h
  | ldByte x | addByte x | rnd x | ldReg x | orReg x | andReg x | xorReg x | ldVxDt x =>
    refine .of_next (setV_writesOnlyOwnParts ?_ s _) h
    exact beq_self_eq_true x
  | addReg x | subReg x | shr x | subnReg x | shl x =>
    refine .of_next (setResultFlag_writesOnlyOwnParts ?_ rfl _ _ s) h
    exact beq_self_eq_true x
  | ldVxK x =>
    refine .of_next ?_ h
    split
    · exact (frame_setPc s _).writesOnlyOwnParts_of_nil (List.Subset.refl _)
    · exact setV_writesOnlyOwnParts (i := .ldVxK x) (beq_self_eq_true x) s _
  | drw x y n =>
    have hframe := frame_guarded (frame_drawSprite x y n s) h
    exact hframe.writesOnlyOwnParts (fun r hr => .inr ⟨List.eq_of_mem_singleton hr, rfl⟩) (List.Subset.refl _)
  | ldB | ldMemVx =>
    exact (frame_guarded (frame_setMem s _) h).writesOnlyOwnParts_of_nil (List.Subset.refl _)
  | ldVxMem x =>
    have hframe := frame_guarded (frame_loadBlock s _ x.isLt) h
    exact hframe.writesOnlyOwnParts (fun r hr => .inl (decide_eq_true ((mem_registersUpTo x.isLt).mp hr)))
      (List.Subset.refl _)

/-! # The sound timer reaches nothing (spec/10_state.md R26, decision D32) -/

theorem skipIf_setSt (c : Bool) (s : State) (b : Byte) : skipIf c (s.setSt b) = (skipIf c s).setSt b := by
  cases c <;> rfl

theorem guarded_setSt (base len : Nat) (s done : State) (b : Byte) :
    guarded base len (s.setSt b) (done.setSt b) = mapAnswer (fun t => t.setSt b) (guarded base len s done) :=
  congrArg Host.Outcome.next (apply_ite (fun t => State.setSt t b) _ done (raise .outOfBoundsAccess s)).symm

theorem callTo_setSt (target : Word) (s : State) (b : Byte) :
    callTo target (s.setSt b) = mapAnswer (fun t => t.setSt b) (callTo target s) := by
  simp only [callTo, apply_dite (mapAnswer _), apply_ite (mapAnswer _)]
  rfl

theorem returnFrom_setSt (s : State) (b : Byte) :
    returnFrom (s.setSt b) = mapAnswer (fun t => t.setSt b) (returnFrom s) := by
  simp only [returnFrom, apply_dite (mapAnswer _), apply_ite (mapAnswer _)]
  rfl

theorem loadBlock_setSt (s : State) (b : Byte) (base k : Nat) :
    loadBlock (s.setSt b) base k = (loadBlock s base k).setSt b := by
  induction k with
  | zero => rfl
  | succ k ih => rw [loadBlock, ih]; rfl

/-- The key wait chooses by the keypad alone (R184). -/
theorem execLdVxK_setSt (x : Nibble) (s : State) (b : Byte) :
    execLdVxK x (s.setSt b) = mapAnswer (fun t => t.setSt b) (execLdVxK x s) :=
  congrArg Host.Outcome.next (apply_ite (fun t => State.setSt t b) (s.env.pins.keys = 0x0000) (s.setPc (s.pc - 2))
    (s.setV x (lowestKey s.env.pins.keys).toByte)).symm

/-- Settles O52: every instruction but LD ST, Vx is an operation that commutes with a change of the sound timer. -/
theorem soundTimerInfluencesNothing : Obligations.SoundTimerInfluencesNothing := by
  intro i s b hi
  cases i with
  | ldStVx x => exact absurd rfl (hi x)
  | call nnn => exact callTo_setSt nnn.toWord s b
  | ret => exact returnFrom_setSt s b
  | seByte | sneByte | seReg | sneReg | skp | sknp => exact congrArg Host.Outcome.next (skipIf_setSt _ s b)
  | ldVxK x => exact execLdVxK_setSt x s b
  | drw x y n => exact guarded_setSt _ _ s (drawSprite hwConfig x y n s) b
  | ldB x => exact guarded_setSt _ _ s (s.setMem (storeBytes s.mem (indexBase s) (decimalDigits (s.v x)))) b
  | ldMemVx x => exact guarded_setSt _ _ s (s.setMem (storeBytes s.mem (indexBase s) (blockValues s x))) b
  | ldVxMem x =>
    change guarded _ _ (s.setSt b) (loadBlock (s.setSt b) (indexBase s) x.toNat) = _
    rw [loadBlock_setSt]
    exact guarded_setSt _ _ s _ b
  | cls | jp | jpV0 | ldByte | addByte | ldReg | orReg | andReg | xorReg | addReg | subReg | shr | subnReg | shl => rfl
  | rnd | ldI | addI | ldF | ldVxDt | ldDtVx => rfl

end Sys2Proof.Machine

/-! # The memories (spec/20_memory.md R50 to R52, R65, R67) -/

namespace Sys2Proof.Machine

/-- Settles O53: main memory is written by a store in range, the display by a clear and by a draw whose pixels lie
below 2048; each keeps the canonical form. -/
theorem stepKeepsMemoriesCanonical : Obligations.StepKeepsMemoriesCanonical :=
  fun _ _ hs h => step_keeps_memoriesWf hs h

/-- Settles O54: a clear leaves every cell 0x00, and a draw toggles binary cells only. -/
theorem stepKeepsDisplayCellsBinary : Obligations.StepKeepsDisplayCellsBinary :=
  fun _ _ hs h => step_keeps_cellsBinary hs h

/-! ## A store, and the read of a byte it wrote -/

theorem storeBytes_get_inside (m : Memory) (base : Nat) {bytes : List Byte} {k : Nat} (h : k < bytes.length) :
    (storeBytes m base bytes).get (base + k) = bytes[k] := by
  rw [storeBytes_get, if_pos (by omega), Nat.add_sub_cancel_left, List.getD_eq_getElem bytes 0x00 h]

/-- The block store of registers 0 to `x`, its effect done: the registers at ascending addresses from `I` (R190). -/
def blockStored (x : Nibble) (s : State) : State :=
  s.setMem (storeBytes s.mem (indexBase s) (blockValues s x))

theorem exec_ldMemVx_inRange {x : Nibble} {s : State} (h : s.i.toNat + x.toNat ≤ 4095) :
    exec (.ldMemVx x) s = .next (blockStored x s) :=
  guarded_ok ((inRange_iff (indexBase s) (x.toNat + 1)).mpr (.inr (Nat.succ_le_succ h))) s (blockStored x s)

theorem blockStored_get (s : State) {x r : Nibble} (h : r.toNat ≤ x.toNat) :
    (blockStored x s).mem.get (s.i.toNat + r.toNat) = s.v r := by
  have hlen : r.toNat < (blockValues s x).length := by rw [blockValues_length]; omega
  calc (blockStored x s).mem.get (s.i.toNat + r.toNat)
      = (blockValues s x)[r.toNat] := storeBytes_get_inside s.mem (indexBase s) hlen
    _ = (blockValues s x).getD r.toNat 0x00 := (List.getD_eq_getElem _ _ hlen).symm
    _ = s.v r := blockValues_getD s x r h

/-- Settles O48: Fetch reads main memory itself, so the two bytes at `pc` are those the store put there. -/
theorem storeIsSeenByTheNextFetch : Obligations.StoreIsSeenByTheNextFetch := by
  intro x k k' s pc ir hrange hsucc hk' hpc
  have hfetch : pc.toNat + 1 < 4096 := by omega
  have hhi : (blockStored x s).mem.get pc.toNat = s.v k := by
    rw [hpc]
    exact blockStored_get s (by omega)
  have hlo : (blockStored x s).mem.get (pc.toNat + 1) = s.v k' := by
    rw [hpc, Nat.add_assoc, ← hsucc]
    exact blockStored_get s hk'
  exact ⟨_, _, exec_ldMemVx_inRange hrange, fetch_ok (s := withFetch pc ir (blockStored x s)) hfetch,
    congrArg₂ wordOfBytes hhi hlo⟩

/-! ## The host's load and its window -/

/-- While the window is open the load is a store behind its bounds test (R67, U22). -/
theorem driverLoad_open {s : State} (hphase : s.env.phase ≠ .running) (base : Nat) (bytes : List Byte) :
    driverStep (.load base bytes) s =
      if inRange base bytes.length then .next (s.setMem (storeBytes s.mem base bytes))
      else .refused .loadOutOfRange := by
  change driverLoad base bytes s = _
  unfold driverLoad
  split
  · next hrunning => exact absurd hrunning hphase
  · rfl

theorem driverLoad_closed {s : State} (hphase : s.env.phase = .running) (base : Nat) (bytes : List Byte) :
    driverStep (.load base bytes) s = .refused .loadWindowClosed := by
  change driverLoad base bytes s = _
  rw [driverLoad, hphase]

/-- A Cycle of a CORE that is not halted closes the load window (R67). -/
theorem step_phase_running {s t : State} (hh : s.halt = false) (h : step s = .next t) : t.env.phase = .running := by
  obtain ⟨hhalt, -⟩ | ⟨-, -, rfl⟩ | ⟨-, -, i, -, hexec⟩ | ⟨-, -, e, -, hundec⟩ := step_cases h
  · exact absurd (hhalt.symm.trans hh) nofun
  · rfl
  · exact (exec_effect hexec).phase
  · exact (ExecEffect.of_next .report hundec).phase

/-- Settles O16: a load in the open window is a store with a bounds test, and a step that answers closes the window. -/
theorem programLoadOnlyBeforeTheFirstCycle : Obligations.ProgramLoadOnlyBeforeTheFirstCycle := by
  intro s base bytes
  refine ⟨fun hphase hle => ?_, fun hphase hne habove => ?_, fun t _ hh hstep => ?_⟩
  · have hr : inRange base bytes.length = true := (inRange_iff base bytes.length).mpr (.inr hle)
    exact ⟨_, (driverLoad_open hphase base bytes).trans (if_pos hr),
      fun _ hk => storeBytes_get_inside s.mem base hk, fun _ ha => storeBytes_get_outside ha, frame_setMem s _⟩
  · have hr : ¬ inRange base bytes.length = true := by
      rw [inRange_iff, List.length_eq_zero_iff]
      exact not_or.mpr ⟨hne, Nat.not_le.mpr habove⟩
    exact (driverLoad_open hphase base bytes).trans (if_neg hr)
  · exact driverLoad_closed (step_phase_running hh hstep) base bytes

end Sys2Proof.Machine

/-! # The encoder and the decoder against each other (spec/30_encoding.md R80 to R96) -/

namespace Sys2Proof

/-! ## A word from its fields, where its selectors are known -/

theorem eq_packNNN {w : Word} {g : Nibble} (hg : w.group = g) : packNNN g w.fieldNNN = w := by
  subst hg
  exact packNNN_fields w

theorem eq_packXKK {w : Word} {g : Nibble} (hg : w.group = g) : packXKK g w.fieldX w.fieldKK = w := by
  subst hg
  exact packXKK_fields w

/-- The low byte `kk` is the selector: formats X of groups E and F (R87, R89). -/
theorem eq_packX {w : Word} {g : Nibble} {kk : Byte} (hg : w.group = g) (hkk : w.fieldKK = kk) :
    packXKK g w.fieldX kk = w := by
  subst hkk
  exact eq_packXKK hg

theorem eq_packXYN {w : Word} {g : Nibble} (hg : w.group = g) : packXYN g w.fieldX w.fieldY w.fieldN = w := by
  subst hg
  exact packXYN_fields w

/-- The low nibble `n` is the selector: formats XY of groups 5, 8 and 9 (R86, R88). -/
theorem eq_packXY {w : Word} {g n : Nibble} (hg : w.group = g) (hn : w.fieldN = n) :
    packXYN g w.fieldX w.fieldY n = w := by
  subst hn
  exact eq_packXYN hg

/-! ## Decoding an encoded instruction (R95) -/

theorem decode_encode (i : Instr) : decode (encode i) = .ok i := by
  cases i with
  | cls | ret => rfl
  | jp | call | ldI | jpV0 => simp [encode, decode]
  | seByte | sneByte | ldByte | addByte | rnd => simp [encode, decode]
  | seReg | sneReg | drw => simp [encode, decode]
  | ldReg | orReg | andReg | xorReg | addReg | subReg | shr | subnReg | shl => simp [encode, decode, decodeGroup8]
  | skp | sknp => simp [encode, decode, decodeGroupE]
  | ldVxDt | ldVxK | ldDtVx | ldStVx | addI | ldF | ldB | ldMemVx | ldVxMem => simp [encode, decode, decodeGroupF]

/-- Settles O1: the selectors of a packed word are those its instruction was packed with, and the two bytes are the
word again. -/
theorem decodeOfEncodeIsTheInstruction : Obligations.DecodeOfEncodeIsTheInstruction := by
  intro i rest
  refine ⟨decode_encode i, ?_⟩
  change decodeBytes ((encode i).hiByte :: (encode i).loByte :: rest) = .ok (i, rest)
  rw [decodeBytes_cons, decode_encode]

/-! ## Encoding a decoded instruction (R95, R96) -/

theorem encode_of_decodeGroup0 {w : Word} {i : Instr} (h : decodeGroup0 w = .ok i) : encode i = w := by
  unfold decodeGroup0 at h
  split at h
  · next hw => cases h; exact hw.symm
  · split at h
    · next hw => cases h; exact hw.symm
    · cases h

theorem encode_of_decodeGroup8 {w : Word} {i : Instr} (hg : w.group = 0x8) (h : decodeGroup8 w = .ok i) :
    encode i = w := by
  unfold decodeGroup8 at h
  split at h
  case h_10 => cases h
  all_goals
    next hn =>
    cases h
    exact eq_packXY hg (BitVec.eq_of_toNat_eq hn)

theorem encode_of_decodeGroupE {w : Word} {i : Instr} (hg : w.group = 0xE) (h : decodeGroupE w = .ok i) :
    encode i = w := by
  unfold decodeGroupE at h
  split at h
  case h_3 => cases h
  all_goals
    next hkk =>
    cases h
    exact eq_packX hg (BitVec.eq_of_toNat_eq hkk)

theorem encode_of_decodeGroupF {w : Word} {i : Instr} (hg : w.group = 0xF) (h : decodeGroupF w = .ok i) :
    encode i = w := by
  unfold decodeGroupF at h
  split at h
  case h_10 => cases h
  all_goals
    next hkk =>
    cases h
    exact eq_packX hg (BitVec.eq_of_toNat_eq hkk)

theorem encode_of_decode {w : Word} {i : Instr} (h : decode w = .ok i) : encode i = w := by
  unfold decode at h
  split at h
  case h_1 => exact encode_of_decodeGroup0 h
  case h_2 hg | h_3 hg | h_11 hg | h_12 hg =>
    cases h
    exact eq_packNNN (BitVec.eq_of_toNat_eq hg)
  case h_4 hg | h_5 hg | h_7 hg | h_8 hg | h_13 hg =>
    cases h
    exact eq_packXKK (BitVec.eq_of_toNat_eq hg)
  case h_6 hg | h_10 hg =>
    split at h
    · next hn =>
      cases h
      exact eq_packXY (BitVec.eq_of_toNat_eq hg) hn
    · cases h
  case h_9 hg => exact encode_of_decodeGroup8 (BitVec.eq_of_toNat_eq hg) h
  case h_14 hg =>
    cases h
    exact eq_packXYN (BitVec.eq_of_toNat_eq hg)
  case h_15 hg => exact encode_of_decodeGroupE (BitVec.eq_of_toNat_eq hg) h
  case h_16 hg => exact encode_of_decodeGroupF (BitVec.eq_of_toNat_eq hg) h
  case h_17 => cases h

/-- Settles O2: group by group, the operands are the word's own fields and the selector is known. -/
theorem encodeOfDecodeIsTheWord : Obligations.EncodeOfDecodeIsTheWord := fun _ _ h => encode_of_decode h

/-! ## The opcode table as masks and matches (R95) -/

theorem OpcodeRow.matchesWord_iff (r : OpcodeRow) (w : Word) : r.matchesWord w = true ↔ w &&& r.mask = r.pattern :=
  decide_eq_true_iff

/-- Two different rows differ in a selector bit that both masks keep. -/
theorem opcodeTable_separated : ∀ r ∈ opcodeTable, ∀ r' ∈ opcodeTable,
    r.pattern &&& r'.mask = r'.pattern &&& r.mask → r = r' := by decide

/-- Rows never overlap: a word that matches two rows shows both patterns under the common mask. -/
theorem opcodeRow_unique {w : Word} {r r' : OpcodeRow} (hr : r ∈ opcodeTable) (hr' : r' ∈ opcodeTable)
    (h : r.matchesWord w = true) (h' : r'.matchesWord w = true) : r = r' := by
  rw [OpcodeRow.matchesWord_iff] at h h'
  apply opcodeTable_separated r hr r' hr'
  rw [← h, ← h', BitVec.and_assoc, BitVec.and_assoc, BitVec.and_comm r.mask]

/-! ### A packed word under the masks of the table -/

theorem packNNN_maskG (g : Nibble) (nnn : Addr) : packNNN g nnn &&& 0xF000#16 = packXYN g 0 0 0 := by
  rw [and_maskG, packNNN_group]

theorem packXKK_maskG (g x : Nibble) (kk : Byte) : packXKK g x kk &&& 0xF000#16 = packXYN g 0 0 0 := by
  rw [and_maskG, packXKK_group]

theorem packXKK_maskGK (g x : Nibble) (kk : Byte) : packXKK g x kk &&& 0xF0FF#16 = packXKK g 0 kk := by
  rw [and_maskGK, packXKK_group, packXKK_fieldKK]

theorem packXYN_maskG (g x y n : Nibble) : packXYN g x y n &&& 0xF000#16 = packXYN g 0 0 0 := by
  rw [and_maskG, packXYN_group]

theorem packXYN_maskGN (g x y n : Nibble) : packXYN g x y n &&& 0xF00F#16 = packXYN g 0 0 n := by
  rw [and_maskGN, packXYN_group, packXYN_fieldN]

theorem Instr.rowNumber_pred_lt (i : Instr) : i.rowNumber - 1 < opcodeTable.length := by
  cases i <;> simp [Instr.rowNumber, opcodeTable, opcodeRowsA, opcodeRowsB, opcodeRowsC]

/-- The row of the opcode table an instruction belongs to: the table lists its rows by number. -/
def Instr.row (i : Instr) : OpcodeRow := opcodeTable[i.rowNumber - 1]'i.rowNumber_pred_lt

theorem Instr.row_mem (i : Instr) : i.row ∈ opcodeTable := List.getElem_mem i.rowNumber_pred_lt

/-- The word of an instruction matches the instruction's own row: under the row's mask only the selectors remain. -/
theorem Instr.row_matchesWord_encode (i : Instr) : i.row.matchesWord (encode i) = true := by
  rw [OpcodeRow.matchesWord_iff]
  cases i with
  | cls | ret => rfl
  | jp | call | ldI | jpV0 => exact packNNN_maskG _ _
  | seByte | sneByte | ldByte | addByte | rnd => exact packXKK_maskG _ _ _
  | drw => exact packXYN_maskG _ _ _ _
  | seReg | sneReg => exact packXYN_maskGN _ _ _ _
  | ldReg | orReg | andReg | xorReg | addReg | subReg | shr | subnReg | shl => exact packXYN_maskGN _ _ _ _
  | skp | sknp => exact packXKK_maskGK _ _ _
  | ldVxDt | ldVxK | ldDtVx | ldStVx | addI | ldF | ldB | ldMemVx | ldVxMem => exact packXKK_maskGK _ _ _

/-! ### A word that matches a row is the word of an instruction of that row -/

theorem eq_packNNN_of_maskG {w : Word} {g : Nibble} (h : w &&& 0xF000#16 = packXYN g 0 0 0) :
    packNNN g w.fieldNNN = w :=
  eq_packNNN (by simpa [and_maskG] using congrArg Word.group h)

theorem eq_packXKK_of_maskG {w : Word} {g : Nibble} (h : w &&& 0xF000#16 = packXYN g 0 0 0) :
    packXKK g w.fieldX w.fieldKK = w :=
  eq_packXKK (by simpa [and_maskG] using congrArg Word.group h)

theorem eq_packXYN_of_maskG {w : Word} {g : Nibble} (h : w &&& 0xF000#16 = packXYN g 0 0 0) :
    packXYN g w.fieldX w.fieldY w.fieldN = w :=
  eq_packXYN (by simpa [and_maskG] using congrArg Word.group h)

theorem eq_packXY_of_maskGN {w : Word} {g n : Nibble} (h : w &&& 0xF00F#16 = packXYN g 0 0 n) :
    packXYN g w.fieldX w.fieldY n = w :=
  eq_packXY (by simpa [and_maskGN] using congrArg Word.group h) (by simpa [and_maskGN] using congrArg Word.fieldN h)

theorem eq_packX_of_maskGK {w : Word} {g : Nibble} {kk : Byte} (h : w &&& 0xF0FF#16 = packXKK g 0 kk) :
    packXKK g w.fieldX kk = w :=
  eq_packX (by simpa [and_maskGK] using congrArg Word.group h) (by simpa [and_maskGK] using congrArg Word.fieldKK h)

theorem eq_of_maskAll {w p : Word} (h : w &&& 0xFFFF#16 = p) : p = w := by
  rw [← h, and_maskAll]

/-- Every word that matches the row is the word of an instruction with the row's number. -/
def OpcodeRow.HasInstr (r : OpcodeRow) : Prop :=
  ∀ w : Word, w &&& r.mask = r.pattern → ∃ i : Instr, encode i = w ∧ i.rowNumber = r.number

theorem opcodeRowsA_hasInstr : ∀ r ∈ opcodeRowsA, r.HasInstr := by
  simp only [opcodeRowsA, List.forall_mem_cons]
  exact ⟨fun _ h => ⟨.cls, eq_of_maskAll h, rfl⟩, fun _ h => ⟨.ret, eq_of_maskAll h, rfl⟩,
    fun _ h => ⟨.jp _, eq_packNNN_of_maskG h, rfl⟩, fun _ h => ⟨.call _, eq_packNNN_of_maskG h, rfl⟩,
    fun _ h => ⟨.seByte _ _, eq_packXKK_of_maskG h, rfl⟩, fun _ h => ⟨.sneByte _ _, eq_packXKK_of_maskG h, rfl⟩,
    fun _ h => ⟨.seReg _ _, eq_packXY_of_maskGN h, rfl⟩, fun _ h => ⟨.ldByte _ _, eq_packXKK_of_maskG h, rfl⟩,
    fun _ h => ⟨.addByte _ _, eq_packXKK_of_maskG h, rfl⟩, nofun⟩

theorem opcodeRowsB_hasInstr : ∀ r ∈ opcodeRowsB, r.HasInstr := by
  simp only [opcodeRowsB, List.forall_mem_cons]
  exact ⟨fun _ h => ⟨.ldReg _ _, eq_packXY_of_maskGN h, rfl⟩, fun _ h => ⟨.orReg _ _, eq_packXY_of_maskGN h, rfl⟩,
    fun _ h => ⟨.andReg _ _, eq_packXY_of_maskGN h, rfl⟩, fun _ h => ⟨.xorReg _ _, eq_packXY_of_maskGN h, rfl⟩,
    fun _ h => ⟨.addReg _ _, eq_packXY_of_maskGN h, rfl⟩, fun _ h => ⟨.subReg _ _, eq_packXY_of_maskGN h, rfl⟩,
    fun _ h => ⟨.shr _ _, eq_packXY_of_maskGN h, rfl⟩, fun _ h => ⟨.subnReg _ _, eq_packXY_of_maskGN h, rfl⟩,
    fun _ h => ⟨.shl _ _, eq_packXY_of_maskGN h, rfl⟩, fun _ h => ⟨.sneReg _ _, eq_packXY_of_maskGN h, rfl⟩, nofun⟩

theorem opcodeRowsC_hasInstr : ∀ r ∈ opcodeRowsC, r.HasInstr := by
  simp only [opcodeRowsC, List.forall_mem_cons]
  exact ⟨fun _ h => ⟨.ldI _, eq_packNNN_of_maskG h, rfl⟩, fun _ h => ⟨.jpV0 _, eq_packNNN_of_maskG h, rfl⟩,
    fun _ h => ⟨.rnd _ _, eq_packXKK_of_maskG h, rfl⟩, fun _ h => ⟨.drw _ _ _, eq_packXYN_of_maskG h, rfl⟩,
    fun _ h => ⟨.skp _, eq_packX_of_maskGK h, rfl⟩, fun _ h => ⟨.sknp _, eq_packX_of_maskGK h, rfl⟩,
    fun _ h => ⟨.ldVxDt _, eq_packX_of_maskGK h, rfl⟩, fun _ h => ⟨.ldVxK _, eq_packX_of_maskGK h, rfl⟩,
    fun _ h => ⟨.ldDtVx _, eq_packX_of_maskGK h, rfl⟩, fun _ h => ⟨.ldStVx _, eq_packX_of_maskGK h, rfl⟩,
    fun _ h => ⟨.addI _, eq_packX_of_maskGK h, rfl⟩, fun _ h => ⟨.ldF _, eq_packX_of_maskGK h, rfl⟩,
    fun _ h => ⟨.ldB _, eq_packX_of_maskGK h, rfl⟩, fun _ h => ⟨.ldMemVx _, eq_packX_of_maskGK h, rfl⟩,
    fun _ h => ⟨.ldVxMem _, eq_packX_of_maskGK h, rfl⟩, nofun⟩

theorem opcodeTable_hasInstr : ∀ r ∈ opcodeTable, r.HasInstr := by
  simp only [opcodeTable, List.forall_mem_append]
  exact ⟨⟨opcodeRowsA_hasInstr, opcodeRowsB_hasInstr⟩, opcodeRowsC_hasInstr⟩

/-- Settles O3: a word that matches a row is the encoding of an instruction of that row, and a word that decodes
matches the row of its instruction. -/
theorem decodeFollowsTheOpcodeTable : Obligations.DecodeFollowsTheOpcodeTable := by
  intro w
  refine ⟨fun r hr r' hr' => opcodeRow_unique hr hr', fun r hr hmatch => ?_, fun hnone => ?_⟩
  · obtain ⟨i, rfl, hnumber⟩ := opcodeTable_hasInstr r hr w ((r.matchesWord_iff w).mp hmatch)
    exact ⟨i, decode_encode i, hnumber⟩
  · cases hd : decode w with
    | error e => exact ⟨e, rfl⟩
    | ok i =>
      have hmatch : i.row.matchesWord w = true := encode_of_decode hd ▸ i.row_matchesWord_encode
      exact absurd (hmatch.symm.trans (hnone i.row i.row_mem)) nofun

/-! ## The secondary selectors of a group (R85 to R89) -/

theorem packNNN_inj {g : Nibble} {a b : Addr} : packNNN g a = packNNN g b ↔ a = b :=
  ⟨fun h => by simpa using congrArg Word.fieldNNN h, congrArg (packNNN g)⟩

theorem decode_packXKK_groupE (x : Nibble) (kk : Byte) :
    decode (packXKK 0xE x kk) = decodeGroupE (packXKK 0xE x kk) := by
  simp [decode]

theorem decode_packXKK_groupF (x : Nibble) (kk : Byte) :
    decode (packXKK 0xF x kk) = decodeGroupF (packXKK 0xF x kk) := by
  simp [decode]

theorem decodeGroupE_unknown {w : Word} (hskp : w.fieldKK ≠ 0x9E) (hsknp : w.fieldKK ≠ 0xA1) :
    decodeGroupE w = .error .unknownGroupE := by
  unfold decodeGroupE
  split
  · next hkk => exact absurd (BitVec.eq_of_toNat_eq hkk) hskp
  · next hkk => exact absurd (BitVec.eq_of_toNat_eq hkk) hsknp
  · rfl

/-- A low byte that is none of the nine selectors makes a word of group F unknown (R89). -/
theorem decodeGroupF_unknown {w : Word} (h : w.fieldKK ∉ fxSelectors) : decodeGroupF w = .error .unknownGroupF := by
  unfold decodeGroupF
  split
  case h_10 => rfl
  all_goals
    next hkk =>
    have hmem : w.fieldKK ∈ fxSelectors := by simp [fxSelectors, ← BitVec.toNat_inj, hkk]
    exact absurd hmem h

/-- Settles O4: the two selectors are those of SKP and SKNP, and no other low byte has an arm in group E. -/
theorem groupESelectsByLowByte : Obligations.GroupESelectsByLowByte := by
  intro x kk
  split
  · next hkk => rw [hkk]; exact decode_encode (.skp x)
  · next hskp =>
    split
    · next hkk => rw [hkk]; exact decode_encode (.sknp x)
    · next hsknp =>
      rw [decode_packXKK_groupE]
      exact decodeGroupE_unknown (by simpa using hskp) (by simpa using hsknp)

theorem decode_packNNN_group0 (nnn : Addr) : decode (packNNN 0x0 nnn) =
    if nnn = 0x0E0 then .ok .cls else if nnn = 0x0EE then .ok .ret else .error .unknownGroup0 := by
  have hcls : packNNN 0x0 nnn = 0x00E0#16 ↔ nnn = 0x0E0 := packNNN_inj (g := 0x0) (b := 0x0E0)
  have hret : packNNN 0x0 nnn = 0x00EE#16 ↔ nnn = 0x0EE := packNNN_inj (g := 0x0) (b := 0x0EE)
  simp only [← hcls, ← hret]
  simp [decode, decodeGroup0]

theorem decode_packXYN_group5 (x y n : Nibble) : decode (packXYN 0x5 x y n) =
    if n = 0 then .ok (.seReg x y) else .error .unknownGroup5 := by
  simp [decode]

theorem decode_packXYN_group9 (x y n : Nibble) : decode (packXYN 0x9 x y n) =
    if n = 0 then .ok (.sneReg x y) else .error .unknownGroup9 := by
  simp [decode]

/-- The low nibbles without an arm in group 8 (R86). -/
theorem decode_packXYN_group8_unknown (x y : Nibble) {n : Nibble}
    (h : n ∈ ([0x8, 0x9, 0xA, 0xB, 0xC, 0xD, 0xF] : List Nibble)) :
    decode (packXYN 0x8 x y n) = .error .unknownGroup8 := by
  simp only [List.mem_cons, List.not_mem_nil, or_false] at h
  obtain rfl | rfl | rfl | rfl | rfl | rfl | rfl := h <;> simp [decode, decodeGroup8]

/-- Settles O5: the unknown selectors group by group, and the nine selectors of group 8 by their instructions. -/
theorem secondarySelectorsOfGroups0589 : Obligations.SecondarySelectorsOfGroups0589 :=
  ⟨decode_packNNN_group0, decode_packXYN_group5, decode_packXYN_group9,
    fun x y _ => decode_packXYN_group8_unknown x y, fun x y =>
    ⟨decode_encode (.ldReg x y), decode_encode (.orReg x y), decode_encode (.andReg x y), decode_encode (.xorReg x y),
      decode_encode (.addReg x y), decode_encode (.subReg x y), decode_encode (.shr x y),
      decode_encode (.subnReg x y), decode_encode (.shl x y)⟩⟩

/-- Settles O6: seven of the words are encodings, the other two have a selector without an arm. -/
theorem sampleWordsDecode : Obligations.SampleWordsDecode :=
  ⟨decode_encode .cls, decode_encode (.jp 0x234), decode_encode (.seByte 10 0x42), decode_encode (.addReg 10 11),
    decode_encode (.drw 1 2 5), decode_encode (.skp 1), decode_encode (.ldVxMem 15), rfl, rfl⟩

end Sys2Proof

/-! # LD Vx,ST outside the opcode table (spec/30_encoding.md R92; spec/40_fetch_dispatch.md R114) -/

namespace Sys2Proof.Machine

/-- R5: a well-formed parameter record selects LD Vx,ST by a low byte that no row of group F uses. -/
theorem soundSel_not_mem_fxSelectors {c : Config} {sel : Byte} (hwf : c.wf = true) (hsel : c.getSoundSel = some sel) :
    sel ∉ fxSelectors := by
  simp only [Config.wf, Config.soundSelFree, hsel, Bool.and_eq_true] at hwf
  obtain ⟨-, hfree⟩ := hwf
  simpa using hfree

theorem decodeSound_absent {c : Config} (hsel : c.getSoundSel = none) (w : Word) : decodeSound c w = none := by
  rw [decodeSound, hsel]

theorem decodeSound_selected {c : Config} {sel : Byte} (hsel : c.getSoundSel = some sel) (x : Nibble) :
    decodeSound c (packXKK 0xF x sel) = some x := by
  simp [decodeSound, hsel]

theorem decodeSound_other {c : Config} {sel : Byte} {w : Word} (hsel : c.getSoundSel = some sel)
    (hw : ∀ x, w ≠ packXKK 0xF x sel) : decodeSound c w = none := by
  simp only [decodeSound, hsel]
  exact if_neg fun ⟨hg, hkk⟩ => hw w.fieldX (eq_packX hg hkk).symm

theorem execUndecoded_sound {c : Config} {s : State} {x : Nibble} (h : decodeSound c s.ir = some x) :
    execUndecoded c s = .next (s.setV x s.st) := by
  rw [execUndecoded, h]
  rfl

theorem execUndecoded_reports {c : Config} {s : State} (h : decodeSound c s.ir = none) :
    execUndecoded c s = .next (reportUnknown s) := by
  rw [execUndecoded, h]

theorem frame_setEnv (s : State) (e : Env) : Frame [] [.env] s (s.setEnv e) :=
  ⟨fun _ _ => rfl, fun p hp => by cases p <;> simp_all [Keeps]⟩

/-- Settles O41: `decodeSound` selects exactly the words `Fx sel`, which a well-formed record keeps outside the table. -/
theorem getSoundTimerFollowsItsParameter : Obligations.GetSoundTimerFollowsItsParameter := by
  refine ⟨fun c sel x s hwf hsel hir => ⟨?_, ?_⟩, fun c sel s _ hsel _ hother => ?_, fun c s hsel => ?_⟩
  · rw [hir, decode_packXKK_groupF]
    exact decodeGroupF_unknown (by simpa using soundSel_not_mem_fxSelectors hwf hsel)
  · have hx : decodeSound c s.ir = some x := by rw [hir, decodeSound_selected hsel]
    exact ⟨_, execUndecoded_sound hx, State.v_setV_self s x s.st, frame_setV s x s.st⟩
  · exact ⟨_, execUndecoded_reports (decodeSound_other hsel hother), rfl, frame_setEnv s _⟩
  · exact ⟨_, execUndecoded_reports (decodeSound_absent hsel s.ir), rfl, frame_setEnv s _⟩

end Sys2Proof.Machine

/-! # Fetch, dispatch and the outcome of a Cycle (spec/40_fetch_dispatch.md R110 to R116) -/

namespace Sys2Proof.Machine

/-! ## What each stage answers -/

theorem runCycle_fetch_out {s : State} (h : memSize ≤ s.pc.toNat + 1) :
    runCycle s = .next (raise .outOfBoundsAccess s) := by
  rw [runCycle, fetch_out h]

theorem step_fetch_out {s : State} (hb : Booted s) (hh : s.halt = false) (h : memSize ≤ s.pc.toNat + 1) :
    step s = .next (raise .outOfBoundsAccess (beginCycle s)) :=
  (step_live hb hh).trans (runCycle_fetch_out (s := beginCycle s) h)

theorem step_decoded {s : State} {i : Instr} (hb : Booted s) (hh : s.halt = false) (hpc : s.pc.toNat + 1 < memSize)
    (hd : decode (fetchWord s) = .ok i) : step s = exec i (fetched s) := by
  rw [step_fetched hb hh hpc, hd]

theorem step_undecoded {s : State} {e : DecodeError} (hb : Booted s) (hh : s.halt = false)
    (hpc : s.pc.toNat + 1 < memSize) (hd : decode (fetchWord s) = .error e) :
    step s = .next (reportUnknown (fetched s)) := by
  rw [step_fetched hb hh hpc, hd]
  exact execUndecoded_hw (fetched s)

theorem driverCycle_halted {s : State} (hb : Booted s) (hh : s.halt = true) (p : Pins) :
    driverStep (.cycle p) s = .next s :=
  (if_pos hh).trans (step_halted hb hh)

/-! ## What Fetch writes (R111) -/

theorem frame_withFetch (pc ir : Word) (s : State) : Frame [] [.pc, .ir] s (withFetch pc ir s) := by
  refine ⟨fun _ _ => rfl, fun part hpart => ?_⟩
  cases part with
  | pc | ir => simp at hpart
  | i | dt | st | sp | stk | env => rfl
  | status => exact ⟨rfl, rfl⟩
  | mem | disp => exact fun _ => rfl

/-- The Execute stage of a step sees the state before the Cycle but for `pc`, IR and the host's side. -/
theorem frame_fetched (s : State) : Frame [] [.pc, .ir, .env] s (fetched s) :=
  ((frame_setEnv s _).trans (frame_withFetch (s.pc + 2) (fetchWord s) (beginCycle s))).mono
    (List.Subset.refl _) (by decide)

/-! ## Every instruction answers a next state while SP is in its range (R27, R110) -/

theorem callTo_answers {s : State} (hsp : StackBounded s) (target : Word) : ∃ t, callTo target s = .next t := by
  obtain hfree | hfull := Nat.lt_or_eq_of_le hsp
  · exact ⟨_, callTo_free target hfree⟩
  · exact ⟨_, callTo_full target hfull⟩

theorem returnFrom_answers {s : State} (hsp : StackBounded s) : ∃ t, returnFrom s = .next t := by
  obtain hempty | hpos := Nat.eq_zero_or_pos s.sp.toNat
  · exact ⟨_, returnFrom_empty hempty⟩
  · exact ⟨_, returnFrom_valid hpos (Nat.sub_one_lt_of_le hpos hsp)⟩

/-- CALL and RET are the only instructions with a stop, and it needs an SP above 16 (log entry 8). -/
theorem exec_answers {s : State} (hsp : StackBounded s) (i : Instr) : ∃ t, exec i s = .next t := by
  cases i with
  | call nnn => exact callTo_answers hsp nnn.toWord
  | ret => exact returnFrom_answers hsp
  | cls | jp | jpV0 => exact ⟨_, rfl⟩
  | seByte | sneByte | seReg | sneReg | skp | sknp | ldVxK => exact ⟨_, rfl⟩
  | ldByte | addByte | ldReg | orReg | andReg | xorReg | addReg | subReg | shr | subnReg | shl | rnd =>
    exact ⟨_, rfl⟩
  | ldI | addI | ldF | ldVxDt | ldDtVx | ldStVx => exact ⟨_, rfl⟩
  | drw | ldB | ldMemVx | ldVxMem => exact ⟨_, rfl⟩

/-! ## The statements -/

/-- Settles O58: a step is one of four, each with a next state: nothing while halted, an error of Fetch, a report, or an
instruction on the fetched state, whose SP is that of `s`. -/
theorem stepAlwaysAnswersANextState : Obligations.StepAlwaysAnswersANextState := by
  intro s hb hsp
  cases hh : s.halt with
  | true => exact ⟨s, step_halted hb hh⟩
  | false =>
    obtain hpc | hpc := Nat.lt_or_ge (s.pc.toNat + 1) memSize
    · cases hd : decode (fetchWord s) with
      | ok i =>
        obtain ⟨t, ht⟩ := exec_answers (s := fetched s) hsp i
        exact ⟨t, (step_decoded hb hh hpc hd).trans ht⟩
      | error e => exact ⟨_, step_undecoded hb hh hpc hd⟩
    · exact ⟨_, step_fetch_out hb hh hpc⟩

/-- Settles O7: the state the Execute stage sees is `fetched s`. -/
theorem stepRunsTheDecodedInstruction : Obligations.StepRunsTheDecodedInstruction := by
  intro s i w hb hh hpc hw hd
  subst hw
  exact step_decoded hb hh (Nat.lt_succ_of_le hpc) hd

/-- Settles O9: the word of two bytes as a number (`wordOfBytes_toNat`), and a sum `pc + 2` that does not wrap. -/
theorem fetchIsBigEndianAndAdvancesByTwo : Obligations.FetchIsBigEndianAndAdvancesByTwo := by
  intro s
  refine ⟨fun hpc => ?_, fun hpc => ⟨fetch_out hpc, runCycle_fetch_out hpc⟩⟩
  have hpc' : s.pc.toNat + 1 < memSize := Nat.lt_succ_of_le hpc
  exact ⟨withFetch (s.pc + 2) (fetchWord s) s, fetch_ok hpc', wordOfBytes_toNat _ _, fetched_pc_toNat hpc',
    frame_withFetch _ _ s⟩

/-- Settles O10: the step is `raise` after the inputs are driven, and neither writes `pc` or IR. -/
theorem fetchOutOfRangeHalts : Obligations.FetchOutOfRangeHalts := by
  intro s hb hh hpc
  exact ⟨_, step_fetch_out hb hh (Nat.succ_le_succ hpc), rfl, rfl, rfl,
    ((frame_setEnv s _).trans (frame_raise .outOfBoundsAccess (beginCycle s))).mono (List.Subset.refl _) (by decide)⟩

/-- Settles O11: the step is the report on the fetched state, whose IR is the word. -/
theorem unknownWordIsAReportedNoOp : Obligations.UnknownWordIsAReportedNoOp := by
  intro s e hb hh hpc hd
  have hpc' : s.pc.toNat + 1 < memSize := Nat.lt_succ_of_le hpc
  exact ⟨_, step_undecoded hb hh hpc' hd, rfl, fetched_pc_toNat hpc', rfl,
    ((frame_fetched s).trans (frame_setEnv (fetched s) _)).mono (List.Subset.refl _) (by decide)⟩

/-- Settles O12: a halted CORE's step answers the state it was given, and the host presents it no inputs. -/
theorem haltedCycleChangesNothing : Obligations.HaltedCycleChangesNothing :=
  fun _ p hb hh => ⟨step_halted hb hh, driverCycle_halted hb hh p⟩

end Sys2Proof.Machine

/-! # Control flow (spec/41_control_flow.md R130 to R139) -/

namespace Sys2Proof.Machine

/-! ## RET after CALL (R131, R133) -/

theorem frame_withStkIr (s : State) (stk : Vector Word 16) (ir : Word) :
    Frame [] [.stk, .ir] s { s with stk := stk, ir := ir } :=
  ⟨fun _ _ => rfl, fun p hp => by cases p <;> simp_all [Keeps]⟩

/-- The pop takes back what the push put there, whatever the next Fetch has written to `pc` and IR. -/
theorem returnFrom_pushPc {s : State} (h : s.sp.toNat < stackDepth) (pc ir : Word) :
    returnFrom (withFetch pc ir (pushPc s h)) = .next { s with stk := (pushPc s h).stk, ir := ir } := by
  have hsp := pushPc_sp_toNat h
  have hbound : (pushPc s h).sp.toNat - 1 < stackDepth := by omega
  have htop : (pushPc s h).stkAt ((pushPc s h).sp.toNat - 1) hbound = s.pc := by
    rw [pushPc_stkAt, if_pos (by omega)]
  have hback : (pushPc s h).sp - 1 = s.sp := BitVec.add_sub_cancel s.sp 1
  rw [returnFrom_valid (s := withFetch pc ir (pushPc s h)) (hsp ▸ Nat.succ_pos _) hbound]
  change Host.Outcome.next { s with
    sp := (pushPc s h).sp - 1, pc := (pushPc s h).stkAt _ hbound, stk := (pushPc s h).stk, ir := ir } = _
  rw [htop, hback]

/-- Settles O23: the state after RET is that before CALL but for the entry CALL wrote and the IR of RET. -/
theorem returnUndoesCall : Obligations.ReturnUndoesCall := by
  intro nnn s pc ir h
  refine ⟨_, _, callTo_free nnn.toWord h, returnFrom_pushPc h pc ir, rfl, rfl, fun j hj hlt => ?_,
    frame_withStkIr s _ ir⟩
  exact (pushPc_stkAt h j hj).trans (if_neg hlt.ne)

/-! ## Where `pc` stands after a Cycle (R139) -/

/-- A Cycle of a live CORE at a word that decodes is that instruction on the fetched state. -/
theorem exec_of_step {s t : State} {i : Instr} (hh : s.halt = false) (hpc : s.pc.toNat + 1 < memSize)
    (hd : decode (fetchWord s) = .ok i) (h : step s = .next t) : exec i (fetched s) = .next t := by
  have hb : Booted s := fun hphase => by simp [step, hphase] at h
  rwa [step_decoded hb hh hpc hd] at h

/-- An instruction whose rule does not name `pc` leaves it where Fetch put it. -/
theorem exec_pc_of_not_mem {i : Instr} {s t : State} (hi : Part.pc ∉ writesParts i) (h : exec i s = .next t) :
    t.pc = s.pc :=
  (everyInstructionWritesOnlyItsOwnParts i s t h).2 .pc hi

theorem skipIf_fetched_pc_toNat (c : Bool) {s : State} (h : s.pc.toNat + 1 < memSize) :
    (skipIf c (fetched s)).pc.toNat = s.pc.toNat + 2 ∨ (skipIf c (fetched s)).pc.toNat = s.pc.toNat + 4 := by
  have hlt : s.pc.toNat + 1 < 4096 := h
  have hadv := fetched_pc_toNat h
  cases c with
  | false => exact .inl hadv
  | true =>
    have hskip : ((fetched s).pc + 2).toNat = (fetched s).pc.toNat + 2 :=
      BitVec.toNat_add_of_lt (show (fetched s).pc.toNat + 2 < 65536 by omega)
    exact .inr (hskip.trans (by rw [hadv]))

/-- The key wait goes back over exactly the 2 that Fetch added (R184). -/
theorem execLdVxK_fetched_pc {x : Nibble} {s t : State} (h : execLdVxK x (fetched s) = .next t) :
    t.pc = s.pc ∨ t.pc = (fetched s).pc := by
  unfold execLdVxK at h
  cases h
  split
  · exact .inl (BitVec.add_sub_cancel s.pc 2)
  · exact .inr rfl

/-- Settles O26: the skips and the key wait by what they add to the fetched `pc`, all others by their frame. -/
theorem pcLawOfEveryInstruction : Obligations.PcLawOfEveryInstruction := by
  intro s t i hh hpc hd hstep
  have hpc' : s.pc.toNat + 1 < memSize := Nat.lt_succ_of_le hpc
  have hexec := exec_of_step hh hpc' hd hstep
  have hadv := fetched_pc_toNat hpc'
  cases i with
  | ret | jp | call | jpV0 => trivial
  | seByte | sneByte | seReg | sneReg | skp | sknp =>
    cases hexec
    exact skipIf_fetched_pc_toNat _ hpc'
  | ldVxK x =>
    obtain hback | hkept := execLdVxK_fetched_pc hexec
    · exact .inl hback
    · exact .inr (by rw [hkept, hadv])
  | _ =>
    have hkept : t.pc = (fetched s).pc := exec_pc_of_not_mem (by simp [writesParts]) hexec
    exact (congrArg BitVec.toNat hkept).trans hadv

/-! ## CLS and the jumps (R130, R132, R138) -/

/-- Settles O18: the display CLS leaves lists no cell. -/
theorem clearDisplayZeroesEveryCell : Obligations.ClearDisplayZeroesEveryCell :=
  ⟨decode_encode .cls, fun s => ⟨_, rfl, fun _ => rfl, frame_setDisp s []⟩⟩

/-- Settles O19: the address fits `pc`, so its extension has the same value. -/
theorem jumpSetsPcToTheAddress : Obligations.JumpSetsPcToTheAddress :=
  fun nnn s => ⟨decode_encode (.jp nnn), _, rfl, toNat_addrToWord nnn, frame_setPc s _⟩

/-- Settles O20: 4095 + 255 is 0x10FE, so the 16-bit sum does not wrap. -/
theorem jumpWithOffsetAddsV0 : Obligations.JumpWithOffsetAddsV0 := by
  intro nnn s
  have hsum : (s.setPc (nnn.toWord + (s.v 0).toWord)).pc.toNat = nnn.toNat + (s.v 0).toNat :=
    toNat_jpV0_target nnn (s.v 0)
  exact ⟨_, rfl, hsum, by omega, frame_setPc s _⟩

/-! ## CALL and RET at the bounds of the stack (R131, R133, R213, R214) -/

/-- Settles O21: SP below, at and above the depth of the stack. -/
theorem callPushesOrOverflows : Obligations.CallPushesOrOverflows := by
  intro nnn s
  refine ⟨fun h => ?_, fun h => ?_, callTo_above nnn.toWord⟩
  · refine ⟨_, callTo_free nnn.toWord h, toNat_addrToWord nnn, pushPc_sp_toNat h, ?_, fun j hj hne => ?_,
      (frame_pushPc h).trans (frame_setPc _ _) |>.mono (List.Subset.refl _) (by decide)⟩
    · exact (pushPc_stkAt h s.sp.toNat h).trans (if_pos rfl)
    · exact (pushPc_stkAt h j hj).trans (if_neg hne)
  · exact ⟨_, callTo_full nnn.toWord h, rfl, rfl, frame_raise _ s⟩

/-- Settles O22: SP with a newest entry, 0, and above the depth of the stack. -/
theorem returnPopsOrUnderflows : Obligations.ReturnPopsOrUnderflows := by
  intro s
  refine ⟨fun h hpos => ?_, fun h => ?_, returnFrom_above⟩
  · exact ⟨_, returnFrom_valid hpos h, rfl, pop_sp_toNat hpos, frame_pop s _ _⟩
  · exact ⟨_, returnFrom_empty h, rfl, rfl, frame_raise _ s⟩

/-! ## The skips (R134 to R137) -/

/-- A skip on the condition `p` adds 2 to `pc` exactly when `p` holds, and writes nothing else. -/
theorem skipIf_advances {c : Bool} {p : Prop} [Decidable p] (h : c = true ↔ p) (s : State) :
    ∃ t, (Host.Outcome.next (skipIf c s) : Answer) = .next t ∧ t.pc = (if p then s.pc + 2 else s.pc) ∧
      Frame [] [.pc] s t := by
  refine ⟨_, rfl, ?_, frame_skipIf c s⟩
  rw [skipIf_eq, State.setPc_pc]
  exact if_congr h rfl rfl

/-- Settles O24: the two skips test the same register and immediate, for equality and for difference. -/
theorem immediateSkipsAdvanceOnTheirCondition : Obligations.ImmediateSkipsAdvanceOnTheirCondition :=
  fun x kk s =>
    ⟨⟨decode_encode (.seByte x kk), skipIf_advances beq_iff_eq s⟩,
      decode_encode (.sneByte x kk), skipIf_advances bne_iff_ne s⟩

/-- Settles O25: the two skips test the same registers; groups 5 and 9 have no other selector than 0. -/
theorem registerSkipsAdvanceOnTheirCondition : Obligations.RegisterSkipsAdvanceOnTheirCondition :=
  fun x y n s =>
    ⟨⟨decode_encode (.seReg x y), skipIf_advances beq_iff_eq s⟩,
      ⟨decode_encode (.sneReg x y), skipIf_advances bne_iff_ne s⟩,
      fun hn => ⟨(decode_packXYN_group5 x y n).trans (if_neg hn), (decode_packXYN_group9 x y n).trans (if_neg hn)⟩⟩

end Sys2Proof.Machine

/-! # Data and arithmetic (spec/42_data_arithmetic.md R150 to R164) -/

namespace Sys2Proof.Machine

/-! ## What a flag writer leaves in its destination and in VF (R163, decision D7) -/

/-- The flag is written last, so it is what VF holds for every destination, 15 included. -/
theorem setResultFlag_v_vf (x : Nibble) (b : Byte) (f : Bool) (s : State) :
    (setResultFlag x b f s).v 15 = flagByte f :=
  (setResultFlag_v x 15 b f s).trans (if_pos rfl)

theorem setResultFlag_v_destination {x : Nibble} (hx : x ≠ 15) (b : Byte) (f : Bool) (s : State) :
    (setResultFlag x b f s).v x = b := by
  rw [setResultFlag_v, vf_eq, if_neg hx, if_pos rfl]

theorem flagByte_decide (p : Prop) [Decidable p] : flagByte (decide p) = if p then 0x01 else 0x00 := by
  simp only [flagByte, decide_eq_true_eq]

theorem toNat_flagByte (f : Bool) : (flagByte f).toNat = f.toNat := by
  cases f <;> rfl

/-! ## The results and the bits moved out, as numbers -/

/-- A byte difference is the integer difference modulo 256, the sign of the latter included (R157, R159). -/
theorem toNat_sub_emod (a b : Byte) : ((a - b).toNat : Int) = (a.toNat - b.toNat : Int) % 256 := by
  rw [BitVec.toNat_sub]
  omega

theorem toNat_shiftRight_one (a : Byte) : (a >>> 1).toNat = a.toNat / 2 := by
  rw [BitVec.toNat_ushiftRight, Nat.shiftRight_eq_div_pow, Nat.pow_one]

theorem toNat_shiftLeft_one (a : Byte) : (a <<< 1).toNat = a.toNat * 2 % 256 := by
  rw [BitVec.toNat_shiftLeft, Nat.shiftLeft_eq, Nat.pow_one]

/-- The bit a right shift moves out is the remainder of the halving (R158). -/
theorem toNat_shiftOutRight (a : Byte) : (flagByte (shiftOutRight a)).toNat = a.toNat % 2 := by
  rw [toNat_flagByte, shiftOutRight, ← BitVec.testBit_toNat, Nat.toNat_testBit, Nat.pow_zero, Nat.div_one]

/-- The bit a left shift moves out is bit 7, the last one of a byte (R160). -/
theorem toNat_shiftOutLeft (a : Byte) : (flagByte (shiftOutLeft a)).toNat = a.toNat / 128 := by
  rw [toNat_flagByte, shiftOutLeft, ← BitVec.testBit_toNat, Nat.toNat_testBit]
  omega

/-! ## ADD, SUB, SUBN and the shifts (R156 to R160) -/

/-- Settles O29: the three write a result and a flag of the operands as they were; the carry and the not-borrow are
comparisons of the operands as numbers. -/
theorem addAndSubtractSetVf : Obligations.AddAndSubtractSetVf := by
  intro x y s
  refine ⟨⟨_, rfl, fun hx => ?_, ?_, frame_setResultFlag x _ _ s⟩,
    ⟨_, rfl, fun hx => ?_, ?_, frame_setResultFlag x _ _ s⟩,
    ⟨_, rfl, fun hx => ?_, ?_, frame_setResultFlag x _ _ s⟩⟩
  · rw [setResultFlag_v_destination hx, BitVec.toNat_add]
  · rw [setResultFlag_v_vf, carryOut, flagByte_decide]
  · rw [setResultFlag_v_destination hx, toNat_sub_emod]
  · rw [setResultFlag_v_vf, notBorrow, flagByte_decide]
  · rw [setResultFlag_v_destination hx, toNat_sub_emod]
  · rw [setResultFlag_v_vf, notBorrow, flagByte_decide]

/-- Settles O30: neither shift reads `y`; halving and doubling as numbers, with the bit moved out in VF. -/
theorem shiftsSetVfAndIgnoreY : Obligations.ShiftsSetVfAndIgnoreY := by
  intro x y y' s
  refine ⟨⟨_, rfl, rfl, fun hx => ?_, ?_, frame_setResultFlag x _ _ s⟩,
    ⟨_, rfl, rfl, fun hx => ?_, ?_, frame_setResultFlag x _ _ s⟩⟩
  · rw [setResultFlag_v_destination hx, toNat_shiftRight_one]
  · rw [setResultFlag_v_vf, toNat_shiftOutRight]
  · rw [setResultFlag_v_destination hx, toNat_shiftLeft_one]
  · rw [setResultFlag_v_vf, toNat_shiftOutLeft]

/-! ## The instructions that write one register alone (R150 to R155, R161, R162) -/

/-- Settles O27: each of the three is one write of `V[x]`, VF included when `x` is 15. -/
theorem loadsAndAddImmediateWriteVxAlone : Obligations.LoadsAndAddImmediateWriteVxAlone := by
  intro x y kk s
  refine ⟨⟨decode_encode (.ldByte x kk), _, rfl, State.v_setV_self s x kk, frame_setV s x kk⟩,
    ⟨decode_encode (.addByte x kk), _, rfl, ?_, frame_setV s x _⟩,
    decode_encode (.ldReg x y), _, rfl, State.v_setV_self s x _, frame_setV s x _⟩
  rw [State.v_setV_self, BitVec.toNat_add]

/-- Settles O28: each of the three is one write of `V[x]`, and the word operations work bit by bit. -/
theorem bitwiseOperationsWriteVxAlone : Obligations.BitwiseOperationsWriteVxAlone := by
  intro x y s
  refine ⟨⟨_, rfl, frame_setV s x _, fun k => ?_⟩, ⟨_, rfl, frame_setV s x _, fun k => ?_⟩,
    ⟨_, rfl, frame_setV s x _, fun k => ?_⟩⟩
  · rw [State.v_setV_self, BitVec.getLsbD_or]
  · rw [State.v_setV_self, BitVec.getLsbD_and]
  · rw [State.v_setV_self, BitVec.getLsbD_xor]

/-- Settles O32: the 16-bit extension of `nnn` has its value. -/
theorem loadIndexImmediate : Obligations.LoadIndexImmediate :=
  fun nnn s => ⟨decode_encode (.ldI nnn), _, rfl, toNat_addrToWord nnn, frame_setI s _⟩

/-- No bit outside the mask is left by the mask (R162). -/
theorem and_mask_and_not_mask (b kk : Byte) : b &&& kk &&& ~~~kk = 0x00 := by
  rw [BitVec.and_assoc, BitVec.and_not_self]
  exact BitVec.and_zero

/-- A byte with no bit outside the mask is what the mask leaves of it, so it is a possible draw of itself (R162). -/
theorem and_mask_of_and_not_mask {v kk : Byte} (h : v &&& ~~~kk = 0x00) : v &&& kk = v := by
  apply BitVec.eq_of_getLsbD_eq
  intro k hk
  have hbit : (v &&& ~~~kk).getLsbD k = (0x00 : Byte).getLsbD k := congrArg (BitVec.getLsbD · k) h
  simpa [hk] using hbit

/-- Settles O33: every masked byte `v` is the result where the byte drawn is `v` itself. -/
theorem randomAndAdmitsEveryMaskedByte : Obligations.RandomAndAdmitsEveryMaskedByte := by
  intro x kk s
  refine ⟨decode_encode (.rnd x kk), ⟨_, rfl, State.v_setV_self s x _, ?_, frame_setV s x _⟩,
    fun v hv => ⟨v, _, rfl, ?_⟩⟩
  · rw [State.v_setV_self, and_mask_and_not_mask]
  · rw [State.v_setV_self]
    exact and_mask_of_and_not_mask hv

end Sys2Proof.Machine

/-! # The display (spec/43_display_key_timer_memory.md R180, decisions D10, D11, D12) -/

namespace Sys2Proof.Machine

/-! ## The cells a DRW toggles, and the pixels its sprite covers -/

/-- The display cells that `DRW Vx, Vy, n` toggles in state `s`, in the order it visits them. -/
def spriteCells (x y n : Nibble) (s : State) : List Nat :=
  spritePixels hwConfig (s.v x).toNat (s.v y).toNat (loadBytes s.mem (indexBase s) n.toNat)

/-- A sprite of at most 15 rows visits no cell twice on a display of 32 rows. -/
theorem spriteCells_nodup (x y n : Nibble) (s : State) : (spriteCells x y n s).Nodup := by
  have hrows : n.toNat ≤ 32 := by omega
  exact spritePixels_nodup (by decide) _ (by rwa [loadBytes_length])

/-- On an axis of `w` pixels, the offset `k` from `v` wraps to `p` exactly when `k` is the wrapped distance from `v`
to `p`. -/
theorem wrapped_offset_iff {w p v k : Nat} (hp : p < w) (hk : k < w) :
    p = (v + k) % w ↔ (p + w - v % w) % w = k := by
  have hv : v % w < w := Nat.mod_lt v (by omega)
  rw [← Nat.mod_add_mod]
  generalize v % w = m at hv ⊢
  rw [Nat.add_mod_eq_ite, Nat.mod_eq_of_lt hv, Nat.mod_eq_of_lt hk]
  by_cases hm : m ≤ p
  · rw [show p + w - m = p - m + w by omega, Nat.add_mod_right, Nat.mod_eq_of_lt (show p - m < w by omega)]
    split <;> omega
  · rw [Nat.mod_eq_of_lt (show p + w - m < w by omega)]
    split <;> omega

theorem cell_eq_pixelAddress_iff {c : Config} {px py qx qy : Nat} (hx : px < c.dispW) (hy : py < c.dispH) :
    py * c.dispW + px = pixelAddress c qx qy ↔ px = qx % c.dispW ∧ py = qy % c.dispH := by
  constructor
  · intro h
    have hcell : pixelAddress c px py = py * c.dispW + px := by
      rw [pixelAddress, Nat.mod_eq_of_lt hx, Nat.mod_eq_of_lt hy]
    have hmod := pixelAddress_inj (Nat.zero_lt_of_lt hx) (hcell.trans h)
    rwa [Nat.mod_eq_of_lt hx, Nat.mod_eq_of_lt hy] at hmod
  · rintro ⟨rfl, rfl⟩
    rfl

/-- A cell is toggled because of row `r` and bit `7 - k` of the sprite (R180). -/
theorem mem_spriteCells {x y n : Nibble} {s : State} {a : Nat} :
    a ∈ spriteCells x y n s ↔ ∃ r k, r < n.toNat ∧ k < 8 ∧
      (s.mem.get (s.i.toNat + r)).getLsbD (7 - k) = true ∧
      a = pixelAddress hwConfig ((s.v x).toNat + k) ((s.v y).toNat + r) := by
  simp only [spriteCells, mem_spritePixels, loadBytes_length, loadBytes_getElem, exists_prop]
  rfl

/-- The loop over rows and bits toggles a pixel exactly when the pixel, read backwards, is covered. -/
theorem pixel_mem_spriteCells {x y n : Nibble} {s : State} {px py : Nat} (hx : px < hwConfig.dispW)
    (hy : py < hwConfig.dispH) :
    py * hwConfig.dispW + px ∈ spriteCells x y n s ↔ SpriteCovers s (s.v x).toNat (s.v y).toNat n.toNat px py := by
  have hcol {k : Nat} (hk : k < 8) := wrapped_offset_iff (v := (s.v x).toNat) hx (show k < 64 by omega)
  have hrow {r : Nat} (hr : r < n.toNat) := wrapped_offset_iff (v := (s.v y).toNat) hy (show r < 32 by omega)
  rw [mem_spriteCells]
  constructor
  · rintro ⟨r, k, hr, hk, hbit, hcell⟩
    obtain ⟨hpx, hpy⟩ := (cell_eq_pixelAddress_iff hx hy).mp hcell
    have hc := (hcol hk).mp hpx
    have hr' := (hrow hr).mp hpy
    subst hc hr'
    exact ⟨hx, hy, hk, hr, hbit⟩
  · rintro ⟨-, -, hk, hr, hbit⟩
    exact ⟨_, _, hr, hk, hbit, (cell_eq_pixelAddress_iff hx hy).mpr ⟨(hcol hk).mpr rfl, (hrow hr).mpr rfl⟩⟩

/-- The toggled cells are those of the covered pixels. -/
theorem mem_spriteCells_iff_covers {x y n : Nibble} {s : State} {a : Nat} :
    a ∈ spriteCells x y n s ↔ ∃ px py, SpriteCovers s (s.v x).toNat (s.v y).toNat n.toNat px py ∧
      a = py * hwConfig.dispW + px := by
  constructor
  · intro ha
    obtain ⟨r, k, -, -, -, hcell⟩ := mem_spriteCells.mp ha
    have hx : ((s.v x).toNat + k) % hwConfig.dispW < hwConfig.dispW := Nat.mod_lt _ (by decide)
    have hy : ((s.v y).toNat + r) % hwConfig.dispH < hwConfig.dispH := Nat.mod_lt _ (by decide)
    rw [hcell] at ha
    exact ⟨_, _, (pixel_mem_spriteCells hx hy).mp ha, hcell⟩
  · rintro ⟨px, py, hcov, rfl⟩
    exact (pixel_mem_spriteCells hcov.1 hcov.2.1).mpr hcov

/-! ## What a DRW in range does to a cell and to VF -/

theorem exec_drw_inRange {x y n : Nibble} {s : State} (h : n = 0 ∨ s.i.toNat + n.toNat ≤ 4096) :
    exec (.drw x y n) s = .next (drawSprite hwConfig x y n s) :=
  guarded_ok (inRange_rows h) s _

theorem drawSprite_cell_of_not_mem {x y n : Nibble} {s : State} {a : Nat} (h : a ∉ spriteCells x y n s) :
    (drawSprite hwConfig x y n s).disp.get a = s.disp.get a :=
  drawFold_get_of_not_mem s.env.cycle (spriteCells x y n s) (s.disp, false) h

theorem drawSprite_cell_of_mem {x y n : Nibble} {s : State} {a : Nat} (h : a ∈ spriteCells x y n s)
    (hv : s.disp.get a = 0x00 ∨ s.disp.get a = 0x01) :
    (drawSprite hwConfig x y n s).disp.get a = s.disp.get a ^^^ 0x01 :=
  drawFold_get_of_mem s.env.cycle (spriteCells_nodup x y n s) (s.disp, false) h hv

/-- No cell above the display memory is touched. -/
theorem drawSprite_cell_above (x y n : Nibble) (s : State) {a : Nat} (h : hwConfig.dispSize ≤ a) :
    (drawSprite hwConfig x y n s).disp.get a = s.disp.get a :=
  drawSprite_cell_of_not_mem fun ha => absurd (spritePixels_lt (by decide) (by decide) ha) (Nat.not_lt.mpr h)

theorem drawSprite_pixel_of_covers {x y n : Nibble} {s : State} {px py : Nat}
    (h : SpriteCovers s (s.v x).toNat (s.v y).toNat n.toNat px py)
    (hv : pixel s px py = 0x00 ∨ pixel s px py = 0x01) :
    pixel (drawSprite hwConfig x y n s) px py = pixel s px py ^^^ 0x01 :=
  drawSprite_cell_of_mem (mem_spriteCells_iff_covers.mpr ⟨px, py, h, rfl⟩) hv

theorem drawSprite_pixel_of_not_covers {x y n : Nibble} {s : State} {px py : Nat} (hx : px < hwConfig.dispW)
    (hy : py < hwConfig.dispH) (h : ¬ SpriteCovers s (s.v x).toNat (s.v y).toNat n.toNat px py) :
    pixel (drawSprite hwConfig x y n s) px py = pixel s px py :=
  drawSprite_cell_of_not_mem (mt (pixel_mem_spriteCells hx hy).mp h)

theorem flagByte_eq_one_iff (f : Bool) : flagByte f = 0x01 ↔ f = true := by
  cases f <;> decide

/-- On a binary display VF reports whether a toggled cell held 0x01. -/
theorem drawSprite_vf_iff {x y n : Nibble} {s : State} (h : CellsBinary s) :
    (drawSprite hwConfig x y n s).v 15 = 0x01 ↔ ∃ a ∈ spriteCells x y n s, s.disp.get a = 0x01 := by
  have hhit := drawFold_hit s.env.cycle (spriteCells_nodup x y n s) (s.disp, false) fun a _ => h a
  rw [drawSprite, ← vf_eq, State.v_setV_self, flagByte_eq_one_iff]
  exact hhit.trans (or_iff_right Bool.false_ne_true)

/-- Settles O34: the loop visits each covered pixel once and no other, and VF is its collision flag. -/
theorem drawTogglesExactlyTheCoveredPixels : Obligations.DrawTogglesExactlyTheCoveredPixels := by
  intro x y n s hbin hrange
  refine ⟨_, exec_drw_inRange hrange, fun px py hx hy => ⟨fun hcov => drawSprite_pixel_of_covers hcov (hbin _),
      drawSprite_pixel_of_not_covers hx hy⟩, fun _ => drawSprite_cell_above x y n s,
    (setV_vf_flagIsBit _ _).symm, ?_, frame_drawSprite x y n s⟩
  rw [drawSprite_vf_iff hbin]
  constructor
  · rintro ⟨a, ha, hset⟩
    obtain ⟨px, py, hcov, rfl⟩ := mem_spriteCells_iff_covers.mp ha
    exact ⟨px, py, hcov, hset⟩
  · rintro ⟨px, py, hcov, hset⟩
    exact ⟨_, mem_spriteCells_iff_covers.mpr ⟨px, py, hcov, rfl⟩, hset⟩

/-- Settles O35: a visited cell is toggled by its own value alone, whatever the other cells hold. -/
theorem drawCompletesOnEveryDisplay : Obligations.DrawCompletesOnEveryDisplay := by
  intro x y n s hrange
  refine ⟨_, exec_drw_inRange hrange, fun _ _ => drawSprite_pixel_of_not_covers,
    fun px py hcov => ⟨fun hv => ?_, fun hv => ?_⟩, fun _ => drawSprite_cell_above x y n s, setV_vf_flagIsBit _ _,
    frame_drawSprite x y n s⟩
  · rw [drawSprite_pixel_of_covers hcov (.inl hv), hv]; rfl
  · rw [drawSprite_pixel_of_covers hcov (.inr hv), hv]; rfl

/-- A sprite of no rows has no cell to toggle and leaves the collision flag 0 (R180). -/
theorem drawSprite_no_rows (x y : Nibble) (s : State) : drawSprite hwConfig x y 0 s = s.setV vf 0x00 := rfl

/-- Settles O36: with no rows the bounds test passes for every `I`, and the loop body never runs. -/
theorem drawOfNoRowsClearsVfAlone : Obligations.DrawOfNoRowsClearsVfAlone := by
  intro x y s
  refine ⟨s.setV vf 0x00, ?_, State.v_setV_self s vf 0x00, frame_setV s vf 0x00⟩
  rw [exec_drw_inRange (.inl rfl), drawSprite_no_rows]

/-! ## Drawing twice (spec/95_test_vectors.md S8) -/

/-- A DRW does not write what it reads but for VF, nor does a Fetch after it: the same sprite covers the same cells
again. -/
theorem spriteCells_again {x y : Nibble} (hx : x ≠ 15) (hy : y ≠ 15) (n : Nibble) (s : State) (pc ir : Word) :
    spriteCells x y n (withFetch pc ir (drawSprite hwConfig x y n s)) = spriteCells x y n s := by
  have hreg {r : Nibble} (hr : r ≠ 15) : (drawSprite hwConfig x y n s).v r = s.v r := State.v_setV_ne _ _ hr
  change spritePixels hwConfig ((drawSprite hwConfig x y n s).v x).toNat ((drawSprite hwConfig x y n s).v y).toNat
    (loadBytes s.mem (indexBase s) n.toNat) = _
  rw [hreg hx, hreg hy, spriteCells]

theorem byte_ne_zero_iff (b : Byte) : b ≠ 0x00 ↔ ∃ k, k < 8 ∧ b.getLsbD (7 - k) = true := by
  constructor
  · intro hb
    by_contra hnone
    refine hb (BitVec.eq_of_getLsbD_eq fun k hk => ?_)
    have hbit : ¬ b.getLsbD (7 - (7 - k)) = true := fun hset => hnone ⟨7 - k, by omega, hset⟩
    rw [show 7 - (7 - k) = k by omega, Bool.not_eq_true] at hbit
    exact hbit.trans BitVec.getLsbD_zero.symm
  · rintro ⟨k, -, hset⟩ rfl
    exact Bool.false_ne_true (BitVec.getLsbD_zero.symm.trans hset)

theorem exists_mem_spriteCells {x y n : Nibble} {s : State} :
    (∃ a, a ∈ spriteCells x y n s) ↔ ∃ r, r < n.toNat ∧ s.mem.get (s.i.toNat + r) ≠ 0x00 := by
  simp only [mem_spriteCells, byte_ne_zero_iff]
  constructor
  · rintro ⟨_, r, k, hr, hk, hbit, -⟩
    exact ⟨r, hr, k, hk, hbit⟩
  · rintro ⟨r, hr, k, hk, hbit⟩
    exact ⟨_, r, k, hr, hk, hbit, rfl⟩

/-- Settles O37: both draws toggle the same cells; on a clear display the first finds none set and sets them all. -/
theorem drawingTwiceRestoresTheDisplay : Obligations.DrawingTwiceRestoresTheDisplay := by
  intro x y n s pc ir hbin hrange hx hy
  have hagain := spriteCells_again hx hy n s pc ir
  have hbin' : CellsBinary (withFetch pc ir (drawSprite hwConfig x y n s)) := drawSprite_cellsBinary x y n hbin
  refine ⟨_, _, exec_drw_inRange hrange, exec_drw_inRange hrange, fun a => ?_, fun hclear => ⟨?_, ?_⟩⟩
  · by_cases ha : a ∈ spriteCells x y n s
    · rw [drawSprite_cell_of_mem (hagain ▸ ha) (hbin' a)]
      change (drawSprite hwConfig x y n s).disp.get a ^^^ 0x01 = _
      rw [drawSprite_cell_of_mem ha (hbin a), BitVec.xor_assoc, BitVec.xor_self, BitVec.xor_zero]
    · rw [drawSprite_cell_of_not_mem (hagain ▸ ha)]
      exact drawSprite_cell_of_not_mem ha
  · refine (setV_vf_flagIsBit _ _).resolve_right fun hset => ?_
    obtain ⟨a, -, hone⟩ := (drawSprite_vf_iff hbin).mp hset
    exact absurd ((hclear a).symm.trans hone) (by decide)
  · have hset {a : Nat} (ha : a ∈ spriteCells x y n s) : (drawSprite hwConfig x y n s).disp.get a = 0x01 := by
      rw [drawSprite_cell_of_mem ha (hbin a), hclear a]; rfl
    rw [drawSprite_vf_iff hbin', hagain, ← exists_mem_spriteCells (x := x) (y := y)]
    exact ⟨fun ⟨a, ha, _⟩ => ⟨a, ha⟩, fun ⟨a, ha⟩ => ⟨a, ha, hset ha⟩⟩

end Sys2Proof.Machine

/-! # Keys, timers, index, digits and blocks (spec/43_display_key_timer_memory.md R181 to R191) -/

namespace Sys2Proof.Machine

/-! ## Keys (R181, R182, R184; decisions D15, D16, D23) -/

theorem toNat_lowNibble (b : Byte) : (lowNibble b).toNat = b.toNat % 16 := by
  rw [lowNibble, BitVec.extractLsb'_toNat, Nat.shiftRight_zero]

theorem toNat_nibbleToByte (k : Nibble) : k.toByte.toNat = k.toNat :=
  BitVec.toNat_setWidth_of_le (by decide)

theorem keyPressed_lowNibble (keys : BitVec 16) (b : Byte) :
    keyPressed keys (lowNibble b) = keys.getLsbD (b.toNat % 16) := by
  rw [keyPressed, toNat_lowNibble]

/-- Settles O38: both are skips on the one key, pressed and not pressed. -/
theorem keySkipsTestTheNamedKey : Obligations.KeySkipsTestTheNamedKey :=
  fun x s =>
    ⟨skipIf_advances (by rw [keyPressed_lowNibble]) s,
      skipIf_advances (by rw [keyPressed_lowNibble, Bool.not_eq_true']) s⟩

theorem exec_ldVxK_noKey (x : Nibble) {s : State} (h : s.env.pins.keys = 0x0000) :
    exec (.ldVxK x) s = .next (s.setPc (s.pc - 2)) :=
  congrArg Host.Outcome.next (if_pos h)

theorem exec_ldVxK_key (x : Nibble) {s : State} (h : s.env.pins.keys ≠ 0x0000) :
    exec (.ldVxK x) s = .next (s.setV x (lowestKey s.env.pins.keys).toByte) :=
  congrArg Host.Outcome.next (if_neg h)

/-- Settles O39: with a key pressed `V[x]` is a key's number, and `lowestKey_spec` says which. -/
theorem keyWaitPollsForTheLowestKey : Obligations.KeyWaitPollsForTheLowestKey := by
  intro x s
  refine ⟨fun hnone => ⟨_, exec_ldVxK_noKey x hnone, rfl, frame_setPc s _⟩, fun hsome => ?_⟩
  have hv : ((s.setV x (lowestKey s.env.pins.keys).toByte).v x).toNat = (lowestKey s.env.pins.keys).toNat := by
    rw [State.v_setV_self, toNat_nibbleToByte]
  obtain ⟨hpressed, hlower⟩ := lowestKey_spec hsome
  refine ⟨_, exec_ldVxK_key x hsome, ?_, ?_, ?_, frame_setV s x _⟩ <;> rw [hv]
  · exact (lowestKey s.env.pins.keys).isLt
  · exact hpressed
  · exact hlower

/-! ## Timers and index (R183, R185 to R188; decisions D17, D20) -/

/-- Settles O40: each move is one write of its destination. -/
theorem timerMovesWriteTheirDestinationAlone : Obligations.TimerMovesWriteTheirDestinationAlone :=
  fun x s =>
    ⟨⟨_, rfl, State.v_setV_self s x s.dt, frame_setV s x _⟩, ⟨_, rfl, rfl, frame_setDt s _⟩,
      ⟨_, rfl, rfl, frame_setSt s _⟩⟩

/-- Settles O42: one write of `I`, with a 16-bit sum. -/
theorem addToIndexWrapsAt16Bits : Obligations.AddToIndexWrapsAt16Bits := by
  intro x s
  refine ⟨_, rfl, ?_, frame_setI s _⟩
  rw [State.setI_i, BitVec.toNat_add, toNat_byteToWord]

/-- The glyphs lie below the program region, so their addresses fit `I` (R5, R188). -/
theorem toNat_fontAddress (digit : Nibble) :
    (fontAddress hwConfig digit).toNat = hwConfig.fontBase + hwConfig.fontStride * digit.toNat := by
  have hlow : 0 + 5 * digit.toNat < 2 ^ 16 := by omega
  exact (BitVec.toNat_ofNat _ 16).trans (Nat.mod_eq_of_lt hlow)

/-- Settles O43: one write of `I`, with the glyph's address. -/
theorem fontAddressOfLowNibble : Obligations.FontAddressOfLowNibble := by
  intro x s
  refine ⟨_, rfl, ?_, frame_setI s _⟩
  rw [State.setI_i, toNat_fontAddress, toNat_lowNibble]

/-! ## Digits (R189, decision D18) -/

/-- LD B, its effect done: the digits of `V[x]` at ascending addresses from `I`. -/
def digitsStored (x : Nibble) (s : State) : State :=
  s.setMem (storeBytes s.mem (indexBase s) (decimalDigits (s.v x)))

theorem exec_ldB_inRange {x : Nibble} {s : State} (h : s.i.toNat + 2 ≤ 4095) :
    exec (.ldB x) s = .next (digitsStored x s) :=
  guarded_ok ((inRange_iff (indexBase s) 3).mpr (.inr (Nat.succ_le_succ h))) s (digitsStored x s)

theorem digitsStored_get (x : Nibble) (s : State) {k : Nat} (h : k < 3) :
    (digitsStored x s).mem.get (s.i.toNat + k) = (decimalDigits (s.v x))[k]'h :=
  storeBytes_get_inside s.mem (indexBase s) h

theorem digitsStored_hundreds (x : Nibble) (s : State) :
    ((digitsStored x s).mem.get s.i.toNat).toNat = (s.v x).toNat / 100 := by
  have hdigit : (digitsStored x s).mem.get s.i.toNat = BitVec.ofNat 8 ((s.v x).toNat / 100) :=
    digitsStored_get x s (k := 0) (by decide)
  rw [hdigit, BitVec.toNat_ofNat]
  omega

theorem digitsStored_tens (x : Nibble) (s : State) :
    ((digitsStored x s).mem.get (s.i.toNat + 1)).toNat = (s.v x).toNat / 10 % 10 := by
  have hdigit : (digitsStored x s).mem.get (s.i.toNat + 1) = BitVec.ofNat 8 ((s.v x).toNat / 10 % 10) :=
    digitsStored_get x s (by decide)
  rw [hdigit, BitVec.toNat_ofNat]
  omega

theorem digitsStored_ones (x : Nibble) (s : State) :
    ((digitsStored x s).mem.get (s.i.toNat + 2)).toNat = (s.v x).toNat % 10 := by
  have hdigit : (digitsStored x s).mem.get (s.i.toNat + 2) = BitVec.ofNat 8 ((s.v x).toNat % 10) :=
    digitsStored_get x s (by decide)
  rw [hdigit, BitVec.toNat_ofNat]
  omega

/-- Settles O44: the three stored bytes are quotients and remainders of `V[x]` by 100 and 10. -/
theorem bcdStoresThreeDigits : Obligations.BcdStoresThreeDigits := by
  intro x s hrange
  have hh := digitsStored_hundreds x s
  have ht := digitsStored_tens x s
  have ho := digitsStored_ones x s
  exact ⟨_, exec_ldB_inRange hrange, by omega, by omega, by omega, by omega,
    fun _ ha => storeBytes_get_outside ha, frame_setMem s _⟩

/-! ## Blocks (R190, R191; decision D19) -/

theorem exec_ldVxMem_inRange {x : Nibble} {s : State} (h : s.i.toNat + x.toNat ≤ 4095) :
    exec (.ldVxMem x) s = .next (loadBlock s (indexBase s) x.toNat) :=
  guarded_ok ((inRange_iff (indexBase s) (x.toNat + 1)).mpr (.inr (Nat.succ_le_succ h))) s _

/-- Settles O45: `blockStored_get` for the bytes of the block, `storeBytes_get_outside` for all others. -/
theorem blockStoreWritesRegistersZeroToX : Obligations.BlockStoreWritesRegistersZeroToX := by
  intro x s hrange
  refine ⟨_, exec_ldMemVx_inRange hrange, fun _ => blockStored_get s, fun a ha => ?_, frame_setMem s _⟩
  exact storeBytes_get_outside (by rwa [blockValues_length])

/-- Settles O46: `loadBlock_v` on both sides of `x`; no part of the state holds the general registers. -/
theorem blockLoadReadsRegistersZeroToX : Obligations.BlockLoadReadsRegistersZeroToX := by
  intro x s hrange
  refine ⟨_, exec_ldVxMem_inRange hrange, fun r hr => ?_, fun r hr => ?_, fun p => ?_⟩
  · exact (loadBlock_v s _ _ x.isLt r).trans (if_pos hr)
  · exact (loadBlock_v s _ _ x.isLt r).trans (if_neg (Nat.not_le.mpr hr))
  · exact (frame_loadBlock s _ x.isLt).2 p List.not_mem_nil

/-- Settles O47: the load reads the addresses the store wrote, in the same order. -/
theorem blockLoadRestoresBlockStore : Obligations.BlockLoadRestoresBlockStore := by
  intro x s u hrange hi
  refine ⟨_, exec_ldMemVx_inRange hrange, fun hmem => ⟨_, exec_ldVxMem_inRange (hi ▸ hrange), fun r hr => ?_⟩⟩
  calc (loadBlock u (indexBase u) x.toNat).v r
      = u.mem.get (u.i.toNat + r.toNat) := (loadBlock_v u _ _ x.isLt r).trans (if_pos hr)
    _ = (blockStored x s).mem.get (s.i.toNat + r.toNat) := by rw [hi, hmem]
    _ = s.v r := blockStored_get s hr

end Sys2Proof.Machine

/-! # Timers, the halt and the bounds error (spec/60_exceptions.md R215 to R222) -/

namespace Sys2Proof.Machine

/-! ## What a frame says of the status and of the host's side -/

theorem Frame.refl (s : State) (rs : List Nibble) (ps : List Part) : Frame rs ps s s := by
  refine ⟨fun _ _ => rfl, fun p _ => ?_⟩
  cases p with
  | i | dt | st | pc | sp | stk | ir | env => rfl
  | status => exact ⟨rfl, rfl⟩
  | mem | disp => exact fun _ => rfl

theorem Frame.status {rs : List Nibble} {ps : List Part} {s t : State} (h : Frame rs ps s t) (hp : .status ∉ ps) :
    t.halt = s.halt ∧ t.err = s.err := h.2 .status hp

theorem Frame.env {rs : List Nibble} {ps : List Part} {s t : State} (h : Frame rs ps s t) (hp : .env ∉ ps) :
    t.env = s.env := h.2 .env hp

/-! ## Runs, one operation at a time -/

theorem driverRun_cons_of_next {op : DriverOp} {s u : State} (h : driverStep op s = .next u) (ops : List DriverOp) :
    driverRun s (op :: ops) = driverRun u ops := by
  rw [driverRun, h]

theorem driverRun_cons_of_refused {op : DriverOp} {s : State} {r : Refusal} (h : driverStep op s = .refused r)
    (ops : List DriverOp) : driverRun s (op :: ops) = .refused r := by
  rw [driverRun, h]

theorem exists_of_driverRun_cons {op : DriverOp} {ops : List DriverOp} {s t : State}
    (h : driverRun s (op :: ops) = .next t) : ∃ u, driverStep op s = .next u ∧ driverRun u ops = .next t := by
  unfold driverRun at h
  split at h
  · next u hu => exact ⟨u, hu, h⟩
  · cases h
  · cases h

/-! ## The tick (R222) -/

theorem toNat_tickByte (b : Byte) : (tickByte b).toNat = b.toNat - 1 := by
  unfold tickByte
  split <;> bv_omega

theorem frame_tickTimers (s : State) : Frame [] [.dt, .st] s (tickTimers s) :=
  (frame_setDt s _).trans (frame_setSt _ _)

theorem driverStep_tick {s : State} (hb : Booted s) : driverStep .tick s = .next (tickTimers s) := by
  change driverTick s = _
  unfold driverTick
  split
  · next hphase => exact absurd hphase hb
  · rfl

/-- Settles O17: a tick never reads HALT and lowers each timer by one, clamped; induction on the number of ticks. -/
theorem timerTicksCountDownAndClamp : Obligations.TimerTicksCountDownAndClamp := by
  intro k
  induction k with
  | zero => exact fun s _ => ⟨s, rfl, rfl, rfl, Frame.refl s _ _⟩
  | succ k ih =>
    intro s hb
    obtain ⟨t, hrun, hdt, hst, hframe⟩ := ih (tickTimers s) hb
    have hdt' : (tickTimers s).dt.toNat = s.dt.toNat - 1 := toNat_tickByte s.dt
    have hst' : (tickTimers s).st.toNat = s.st.toNat - 1 := toNat_tickByte s.st
    exact ⟨t, (driverRun_cons_of_next (driverStep_tick hb) _).trans hrun, by omega, by omega,
      ((frame_tickTimers s).trans hframe).mono (List.Subset.refl _) (by decide)⟩

/-! ## A halted CORE without Reset (R116, R219; decisions D3, D29) -/

theorem driverStep_halted_cases {op : DriverOp} {s t : State} (hh : s.halt = true) (hop : op ≠ .reset)
    (h : driverStep op s = .next t) : t = s ∨ t = tickTimers s ∨ ∃ m, t = s.setMem m := by
  obtain ⟨hreset, -⟩ | ⟨p, u, rfl, -, -⟩ | ⟨-, rfl⟩ | ⟨base, bytes, -, -, -, rfl⟩ := driverStep_cases h
  · exact absurd hreset hop
  · have hcycle : driverStep (.cycle p) s = step s := if_pos hh
    obtain ⟨-, rfl⟩ | ⟨hlive, -⟩ | ⟨hlive, -⟩ | ⟨hlive, -⟩ := step_cases (hcycle.symm.trans h)
    · exact .inl rfl
    all_goals exact absurd (hh.symm.trans hlive) nofun
  · exact .inr (.inl rfl)
  · exact .inr (.inr ⟨_, rfl⟩)

/-- Before the first Cycle after a Reset the load may still write main memory; nothing else moves but the timers. -/
theorem frame_driverStep_halted {op : DriverOp} {s t : State} (hh : s.halt = true) (hop : op ≠ .reset)
    (h : driverStep op s = .next t) : Frame [] [.dt, .st, .mem] s t := by
  obtain rfl | rfl | ⟨m, rfl⟩ := driverStep_halted_cases hh hop h
  · exact Frame.refl _ _ _
  · exact (frame_tickTimers s).mono (List.Subset.refl _) (by decide)
  · exact (frame_setMem s m).mono (List.Subset.refl _) (by decide)

theorem frame_driverRun_halted {ops : List DriverOp} {s t : State} (hh : s.halt = true) (hops : .reset ∉ ops)
    (h : driverRun s ops = .next t) : Frame [] [.dt, .st, .mem] s t := by
  induction ops generalizing s with
  | nil => cases h; exact Frame.refl _ _ _
  | cons op ops ih =>
    obtain ⟨u, hstep, hrest⟩ := exists_of_driverRun_cons h
    have hframe := frame_driverStep_halted hh (List.ne_of_not_mem_cons hops).symm hstep
    have hhalt : u.halt = true := (hframe.status (by decide)).1.trans hh
    exact (hframe.trans (ih hhalt (List.not_mem_of_not_mem_cons hops) hrest)).mono (List.Subset.refl _) (by decide)

/-- In phase `running` a Cycle and a tick answer, and the load window is closed. -/
theorem driverStep_halted_running {op : DriverOp} {s : State} (hh : s.halt = true) (hrun : s.env.phase = .running)
    (hop : op ≠ .reset) :
    ((∀ base bytes, op ≠ .load base bytes) ∧ ∃ u, driverStep op s = .next u ∧ Frame [] [.dt, .st] s u) ∨
      driverStep op s = .refused .loadWindowClosed := by
  have hb : Booted s := by rw [Booted, hrun]; exact nofun
  cases op with
  | reset => exact absurd rfl hop
  | cycle p => exact .inl ⟨nofun, s, driverCycle_halted hb hh p, Frame.refl s _ _⟩
  | tick => exact .inl ⟨nofun, tickTimers s, driverStep_tick hb, frame_tickTimers s⟩
  | load base bytes => exact .inr (driverLoad_closed hrun base bytes)

/-- A run either has no load and moves the timers alone, or stops at its first load. -/
theorem driverRun_halted_running {ops : List DriverOp} {s : State} (hh : s.halt = true)
    (hrun : s.env.phase = .running) (hops : .reset ∉ ops) :
    ((∀ base bytes, .load base bytes ∉ ops) ∧ ∃ t, driverRun s ops = .next t ∧ Frame [] [.dt, .st] s t) ∨
      driverRun s ops = .refused .loadWindowClosed := by
  induction ops generalizing s with
  | nil => exact .inl ⟨fun _ _ => List.not_mem_nil, s, rfl, Frame.refl s _ _⟩
  | cons op ops ih =>
    obtain ⟨hload, u, hstep, hframe⟩ | hstep :=
      driverStep_halted_running hh hrun (List.ne_of_not_mem_cons hops).symm
    · have hhalt : u.halt = true := (hframe.status (by decide)).1.trans hh
      have hphase : u.env.phase = .running := by rw [hframe.env (by decide), hrun]
      rw [driverRun_cons_of_next hstep]
      obtain ⟨hloads, t, hrest, hframe'⟩ | hrest := ih hhalt hphase (List.not_mem_of_not_mem_cons hops)
      · exact .inl ⟨fun base bytes => List.not_mem_cons_of_ne_of_not_mem (hload base bytes).symm (hloads base bytes),
          t, hrest, (hframe.trans hframe').mono (List.Subset.refl _) (by decide)⟩
      · exact .inr hrest
    · exact .inr (driverRun_cons_of_refused hstep ops)

/-- Settles O59: the status is in the frame of every operation but Reset, and in phase `running` the load is refused. -/
theorem onlyResetLeavesTheHalt : Obligations.OnlyResetLeavesTheHalt := by
  intro ops s t hh hops
  refine ⟨fun h => ?_, fun hrun => ?_⟩
  · have hframe := frame_driverRun_halted hh hops h
    obtain ⟨hhalt, herr⟩ := hframe.status (by decide)
    exact ⟨hhalt.trans hh, herr, hframe⟩
  · obtain ⟨hloads, u, hu, hframe⟩ | hrefused := driverRun_halted_running hh hrun hops
    · refine ⟨fun h => ?_, fun base bytes hmem => absurd hmem (hloads base bytes)⟩
      cases hu.symm.trans h
      exact hframe
    · exact ⟨fun h => (nomatch hrefused.symm.trans h), fun _ _ _ => hrefused⟩

/-! ## The bounds error (R215, R218; decision D5) -/

theorem inRange_above {base len : Nat} (hlen : 0 < len) (h : 4096 < base + len) : inRange base len = false := by
  have hnot : ¬ (len = 0 ∨ base + len ≤ 4096) := by omega
  exact decide_eq_false hnot

/-- A memory instruction whose last address is above 4095 is its error alone, whatever its effect would be. -/
theorem guarded_raises {base len : Nat} (hlen : 0 < len) (h : 4096 < base + len) (s done : State) :
    ∃ t, guarded base len s done = .next t ∧ t.halt = true ∧ t.err = 4 ∧ Frame [] [.status] s t :=
  ⟨_, guarded_out (inRange_above hlen h) s done, rfl, rfl, frame_raise .outOfBoundsAccess s⟩

/-- Settles O49: each of the four instructions is its effect behind one bounds test, which fails. -/
theorem outOfBoundsRaisesAndWritesNothing : Obligations.OutOfBoundsRaisesAndWritesNothing := by
  rintro x y n s i (⟨rfl, hn, h⟩ | ⟨rfl, h⟩ | ⟨rfl, h⟩ | ⟨rfl, h⟩)
  · exact guarded_raises (base := indexBase s) hn (show 4096 < s.i.toNat + n.toNat by omega) s _
  · exact guarded_raises (base := indexBase s) (Nat.succ_pos 2) (Nat.succ_lt_succ h) s _
  · exact guarded_raises (base := indexBase s) (Nat.succ_pos x.toNat) (Nat.succ_lt_succ h) s _
  · exact guarded_raises (base := indexBase s) (Nat.succ_pos x.toNat) (Nat.succ_lt_succ h) s _

end Sys2Proof.Machine

/-! # Reset, and the state a run ends in (spec/70_reset_and_hazards.md R240 to R246) -/

namespace Sys2Proof.Machine

/-! ## Before the first Reset (R241) -/

theorem step_neverReset {s : State} (h : s.env.phase = .constructed) : step s = .refused .neverReset := by
  rw [step, h]

theorem driverStep_tick_neverReset {s : State} (h : s.env.phase = .constructed) :
    driverStep .tick s = .refused .neverReset := by
  change driverTick s = _
  rw [driverTick, h]

theorem booted_resetCore (s : State) : Booted (resetCore s) := nofun

/-- Settles O13: Cycle and tick read the boot phase first, and Reset writes it. -/
theorem neverResetCoreRefusesCycleAndTick : Obligations.NeverResetCoreRefusesCycleAndTick := by
  intro s hb
  have hphase : s.env.phase = .constructed := not_not.mp hb
  exact ⟨step_neverReset hphase, driverStep_tick_neverReset hphase, resetCore s, rfl, booted_resetCore s⟩

/-! ## What Reset leaves (R240, R242) -/

@[simp] theorem resetCore_v (s : State) (r : Nibble) : (resetCore s).v r = 0x00 := Vector.getElem_replicate r.isLt

theorem resetCore_keeps_memories (s : State) : Keeps s (resetCore s) .mem ∧ Keeps s (resetCore s) .disp :=
  ⟨fun _ => rfl, fun _ => rfl⟩

/-- Settles O14: Reset is one record update, and it names neither memory. -/
theorem resetLeavesTheStatedValues : Obligations.ResetLeavesTheStatedValues :=
  fun s => ⟨resetCore s, rfl, resetCore_v s, rfl, rfl, rfl, rfl, rfl, rfl, rfl, rfl, resetCore_keeps_memories s⟩

/-- The machine after reset is a fixed point of Reset, so what Reset establishes holds of it. -/
theorem resetCore_reset : resetCore State.reset = State.reset := rfl

/-- Settles O15: Reset establishes the invariants over memories that meet theirs, and empty memories do. -/
theorem resetMeetsEveryInvariant : Obligations.ResetMeetsEveryInvariant := by
  have hcells : CellsBinary State.reset := fun _ => .inl rfl
  have hinv := resetCore_machineInv ⟨reset_mem_wf, reset_disp_wf⟩ hcells
  have hbooted := booted_resetCore State.reset
  rw [resetCore_reset] at hinv hbooted
  exact ⟨hinv, hbooted⟩

/-! ## The self-jump (R246; decision D30) -/

/-- A part named as possibly written, but found unchanged, leaves the list. -/
theorem Frame.of_keeps {rs : List Nibble} {p : Part} {ps : List Part} {s t : State} (h : Frame rs (p :: ps) s t)
    (hp : Keeps s t p) : Frame rs ps s t := by
  obtain ⟨hreg, hpart⟩ := h
  refine ⟨hreg, fun q hq => ?_⟩
  obtain rfl | hne := eq_or_ne q p
  · exact hp
  · exact hpart q (List.not_mem_cons_of_ne_of_not_mem hne hq)

/-- JP undoes Fetch's advance of `pc`, so the Cycle leaves the fetched state with `pc` put back. -/
theorem step_endedNormally {s : State} (hb : Booted s) (h : EndedNormally s) :
    step s = .next ((fetched s).setPc s.pc) := by
  obtain ⟨hh, hpc, nnn, hword, haddr⟩ := h
  have hpc' : s.pc.toNat + 1 < memSize := Nat.lt_succ_of_le (Nat.succ_le_succ hpc)
  have hd : decode (fetchWord s) = .ok (.jp nnn) := hword ▸ decode_encode (.jp nnn)
  calc step s
    _ = exec (.jp nnn) (fetched s) := step_decoded hb hh hpc' hd
    _ = .next ((fetched s).setPc nnn.toWord) := rfl
    _ = .next ((fetched s).setPc s.pc) := by rw [haddr]

theorem frame_fetched_setPc (s : State) : Frame [] [.ir, .env] s ((fetched s).setPc s.pc) := by
  have hframe : Frame [] [.pc, .ir, .env] s ((fetched s).setPc s.pc) :=
    ((frame_fetched s).trans (frame_setPc (fetched s) s.pc)).mono (List.Subset.refl _) (by decide)
  exact hframe.of_keeps rfl

/-- Settles O60: that state has the `pc`, the main memory and HALT of `s`, on which `EndedNormally` rests. -/
theorem selfJumpIsFinal : Obligations.SelfJumpIsFinal :=
  fun s hb h => ⟨(fetched s).setPc s.pc, step_endedNormally hb h, h, rfl, rfl, frame_fetched_setPc s⟩

end Sys2Proof.Machine
